-- ==== Sys2Proof/Word.lean ====
section
/-! DEFINITION. The word types of the block (spec 00_scope.md R6): bytes, 64-bit registers, 128-bit lanes. -/

namespace Sys2Proof

/-- `u8`: one byte of data memory or of the host bus. -/
abbrev Byte := BitVec 8

/-- `u64`: one register. -/
abbrev Word := BitVec 64

/-- `u128`: one lane of the Fold Engine, or one 16-byte block of data. -/
abbrev Block := BitVec 128

end Sys2Proof
end

