-- ==== Sys2Proof/Config.lean ====
section
/-! DEFINITION. What the platform fixes around the block: the OPEN parameters of spec 00_scope.md R5.
A `Platform` stands in the state as plain data that no step changes, so that every statement about every
state is a statement about every value of the parameters (log 3). -/

namespace Sys2Proof

/-- The data addresses `base` to `base + size - 1`. -/
structure AddrRange where
  base : Nat
  size : Nat
deriving DecidableEq, Repr

/-- The address `a` lies in the range. -/
def AddrRange.holds (r : AddrRange) (a : Nat) : Bool :=
  decide (r.base ≤ a) && decide (a < r.base + r.size)

/-- The parameters `AW`, `ADMITTED` and `MMIO_BASE` of R5. `ADMITTED` is any predicate on the finitely many
addresses below `2^AW`; it is held as a list of ranges (log 4). `NUM_CONTEXTS` is the number of contexts the
state holds, and `CAPS_IN` is an input of the state. -/
structure Platform where
  /-- `AW`: width in bits of a data-memory byte address. -/
  aw : Nat
  /-- `ADMITTED`: the addresses the block may read. -/
  admitted : List AddrRange
  /-- `MMIO_BASE`: host address of offset 0 of the register window. -/
  mmioBase : Nat
deriving DecidableEq, Repr

/-- R5's bounds on the parameters: `1 ≤ AW ≤ 64` and a window base that is 8 KiB aligned. -/
def Platform.wf (p : Platform) : Bool :=
  decide (1 ≤ p.aw) && decide (p.aw ≤ 64) && decide (p.mmioBase % 0x2000 = 0)

namespace Config

/-- The largest `NUM_CONTEXTS` (R5). -/
def maxContexts : Nat := 64

/-- Bytes of the register window (20_memory.md R57). -/
def windowSize : Nat := 0x2000

/-- DESIGN CHOICE (log 3): the parameters `State.reset` is built with, those of 95_test_vectors.md section 3;
the base 0 is the model's own. -/
def platform : Platform :=
  { aw := 64, admitted := [{ base := 0x1000, size := 0x1000 }], mmioBase := 0 }

/-- DESIGN CHOICE (log 3): `NUM_CONTEXTS` of `State.reset`, from 95_test_vectors.md section 3. -/
def numContexts : Nat := 2

/-- DESIGN CHOICE (log 3): `CAPS_IN` of `State.reset`, from 95_test_vectors.md section 3. -/
def capsIn : BitVec 3 := 0b111#3

end Config

end Sys2Proof
end

