-- ==== Sys2Proof/Syntax.lean ====
section
/-! DEFINITION. The commands of the block: one constructor per row of spec/opcode_table.json. A command word
has no context field: the context is the one whose window received the store (30_encoding.md R70), so each
constructor carries that number, as the mnemonics of R79 do (`crc.new cN`; log 8). -/

namespace Sys2Proof

/-- The eight commands (30_encoding.md R71, R72), each on the context `c`. -/
inductive Instr where
  /-- `crc.new`: make context `c` a new Digest (43_digest_commands.md R161). -/
  | new (c : Nat)
  /-- `crc.reset`: return the CRC register to `INIT` (R162). -/
  | reset (c : Nat)
  /-- `crc.write`: extend the CRC through the bound engine (R164). -/
  | write (c : Nat)
  /-- `crc.write.t`: extend the CRC through the Table Engine (R165). -/
  | writeT (c : Nat)
  /-- `crc.write.f`: extend the CRC through the Fold Engine (R166). -/
  | writeF (c : Nat)
  /-- `crc.sum`: RESULT receives the checksum (R167). -/
  | sum (c : Nat)
  /-- `crc.select`: RESULT receives the dispatch decision (R168). -/
  | select (c : Nat)
  /-- `crc.drop`: end the Digest (R169). -/
  | drop (c : Nat)
deriving DecidableEq, Repr

/-- The context a command acts on. -/
def Instr.ctx : Instr → Nat
  | .new c => c
  | .reset c => c
  | .write c => c
  | .writeT c => c
  | .writeF c => c
  | .sum c => c
  | .select c => c
  | .drop c => c

end Sys2Proof
end

