-- ==== Sys2Proof/WellFormed.lean ====
section
/-! DEFINITION. Which commands a host can issue at all: the register window has room for 64 contexts
(20_memory.md R57), so a command names a context below 64. -/

namespace Sys2Proof

/-- The command's context has a window: `c < 64` (R5, R57). -/
def Instr.wellFormed (i : Instr) : Bool :=
  decide (i.ctx < Config.maxContexts)

end Sys2Proof
end

