-- ==== Sys2Proof/Decode.lean ====
section
/-! DEFINITION. Byte order of words (00_scope.md R7, 20_memory.md R59), the register-window map (R57), the
decoder of command words (30_encoding.md R74) and the encoder beside it. -/

namespace Sys2Proof

/-! ## Byte order -/

/-- A byte string as one value of `w` bits, the first byte least significant (R7). -/
def leBits (w : Nat) : List Byte → BitVec w
  | [] => 0#w
  | b :: bs => b.setWidth w ||| (leBits w bs <<< 8)

/-- `LE64(d, i)` (R7). -/
def le64 (d : List Byte) (i : Nat) : Word :=
  leBits 64 ((d.drop i).take 8)

/-- `LE128(d, i)` (R7). -/
def le128 (d : List Byte) (i : Nat) : Block :=
  leBits 128 ((d.drop i).take 16)

/-- `byte_j(v)` (R7). -/
def byteOf (v : Word) (j : Nat) : Byte :=
  (v >>> (8 * j)).setWidth 8

/-- A register as the eight bytes of its slot on the host bus, offset `+0` first (R59). -/
def wordBytes (v : Word) : List Byte :=
  [byteOf v 0, byteOf v 1, byteOf v 2, byteOf v 3, byteOf v 4, byteOf v 5, byteOf v 6, byteOf v 7]

/-! ## The register window -/

/-- What stands at an offset of the register window (R57). -/
inductive WindowReg where
  | caps
  | config
  | dispatch
  | nctx
  | cmd (c : Nat)
  | arg0 (c : Nat)
  | arg1 (c : Nat)
  | result (c : Nat)
  | status (c : Nat)
  /-- A reserved offset, an absent context, or unused space: RAZ/WI (R60). -/
  | reserved
deriving DecidableEq, Repr

/-- Offset of context `c`'s window (R57). -/
def ctxOffset (c : Nat) : Nat :=
  0x100 + 0x40 * c

/-- The window map of R57 for a block with `n` contexts, on 8-aligned offsets. -/
def windowReg (n off : Nat) : WindowReg :=
  if off = 0x000 then .caps
  else if off = 0x008 then .config
  else if off = 0x010 then .dispatch
  else if off = 0x018 then .nctx
  else if off < 0x100 then .reserved
  else
    let c := (off - 0x100) / 0x40
    let r := (off - 0x100) % 0x40
    if n ≤ c then .reserved
    else if r = 0x00 then .cmd c
    else if r = 0x08 then .arg0 c
    else if r = 0x10 then .arg1 c
    else if r = 0x18 then .result c
    else if r = 0x20 then .status c
    else .reserved

/-! ## Decoding -/

/-- Why a word is no command: the cases of ILLEGAL in R71 to R74. -/
inductive DecodeError where
  /-- A bit of `RSV` (63:10) is set (R73). -/
  | reservedBits
  /-- `OP` = 0x03 with `ENG` = 0b11 (R72). -/
  | reservedEngine
  /-- `ENG` is not 0 and `OP` is not 0x03 (R73). -/
  | engineNotAllowed
  /-- `OP` is 0x00 or 0x07 to 0xFF (R71). -/
  | reservedOp
  /-- Not the eight bytes of one command word (R76). -/
  | notOneWord
deriving DecidableEq, Repr

/-- `OP`, bits 7:0 (R70). -/
def opField (w : Word) : BitVec 8 := w.extractLsb' 0 8

/-- `ENG`, bits 9:8 (R70). -/
def engField (w : Word) : BitVec 2 := w.extractLsb' 8 2

/-- `RSV`, bits 63:10 (R70). -/
def rsvField (w : Word) : BitVec 54 := w.extractLsb' 10 54

/-- The decoder of R74, for a word stored to the CMD register of context `c`. -/
def decode (c : Nat) (w : Word) : Except DecodeError Instr :=
  if rsvField w ≠ 0 then .error .reservedBits
  else if opField w = 0x03 then
    if engField w = 0b00 then .ok (.write c)
    else if engField w = 0b01 then .ok (.writeT c)
    else if engField w = 0b10 then .ok (.writeF c)
    else .error .reservedEngine
  else if engField w ≠ 0b00 then .error .engineNotAllowed
  else if opField w = 0x01 then .ok (.new c)
  else if opField w = 0x02 then .ok (.reset c)
  else if opField w = 0x04 then .ok (.sum c)
  else if opField w = 0x05 then .ok (.select c)
  else if opField w = 0x06 then .ok (.drop c)
  else .error .reservedOp

/-- The decoder on any bytes as they lie on the host bus: a command is exactly one 64-bit word (R76), little-endian (R59). -/
def decodeBytes (c : Nat) (bs : List Byte) : Except DecodeError Instr :=
  if bs.length = 8 then decode c (le64 bs 0) else .error .notOneWord

/-- The decoder on a row of spec/opcode_table.json, whose numbering is the word's own (R70). The row has no
context, so context 0 stands for it (log 8). -/
def decodeTableWord (nbits w : Nat) : Option Instr :=
  if w % 2 ^ nbits < 2 ^ 64 then
    (decodeBytes 0 (wordBytes (BitVec.ofNat 64 (w % 2 ^ nbits)))).toOption
  else none

/-! ## Encoding -/

/-- The word with the given `OP` and `ENG` and with `RSV` = 0 (R70). -/
def packWord (op : BitVec 8) (eng : BitVec 2) : Word :=
  op.setWidth 64 ||| eng.setWidth 64 <<< 8

/-- The command word of a command (R71, R72). -/
def encodeWord : Instr → Word
  | .new _ => packWord 0x01 0b00
  | .reset _ => packWord 0x02 0b00
  | .write _ => packWord 0x03 0b00
  | .writeT _ => packWord 0x03 0b01
  | .writeF _ => packWord 0x03 0b10
  | .sum _ => packWord 0x04 0b00
  | .select _ => packWord 0x05 0b00
  | .drop _ => packWord 0x06 0b00

/-- A command as a host issues it: the window offset of its context's CMD register and the word stored there
(R57, R70, R79). -/
def encode (i : Instr) : Nat × Word :=
  (ctxOffset i.ctx, encodeWord i)

/-- What a store of word `w` at window offset `off` asks for: `none` where the offset is no CMD register of a
block with 64 contexts. -/
def decodeStore (off : Nat) (w : Word) : Option (Except DecodeError Instr) :=
  match windowReg Config.maxContexts off with
  | .cmd c => some (decode c w)
  | _ => none

end Sys2Proof
end

