-- ==== Sys2Proof/Machine/Constants.lean ====
section
/-! DEFINITION. The constants of the CRC (00_scope.md R2) and of the Fold Engine (41_fold_engine.md R121),
as the spec's tables write them. They are ROM, not state (10_state.md R31, R32, R35). -/

namespace Sys2Proof.Machine

/-- `POLY_N`: the generator polynomial in normal form, bit j the coefficient of x^j (R2). -/
def polyN : Word := 0x42F0E1EBA9EA3693#64

/-- `POLY_R` = `rev64(POLY_N)`: the reflected polynomial (R2, 90_conflicts.md C3). -/
def polyR : Word := 0xC96C5795D7870F42#64

/-- `INIT`: the initial register value (R2, 90_conflicts.md C1). -/
def crcInit : Word := 0xFFFFFFFFFFFFFFFF#64

/-- `XOROUT`: the output mask (R2, 90_conflicts.md C2). -/
def xorOut : Word := 0xFFFFFFFFFFFFFFFF#64

/-- `MU`: the Barrett constant (R121). -/
def muConst : Word := 0x4E1F23360B94B1EA#64

/-- `K(n)` for the sixteen `n` of R121's table; no rule uses another `n`. -/
def foldK (n : Nat) : Word :=
  match n with
  | 127 => 0xDABE95AFC7875F40#64
  | 191 => 0xE05DD497CA393AE4#64
  | 255 => 0x3BE653A30FE1AF51#64
  | 319 => 0x60095B008A9EFA44#64
  | 383 => 0x69A35D91C3730254#64
  | 447 => 0xB5EA1AF9C013ACA4#64
  | 511 => 0x081F6054A7842DF4#64
  | 575 => 0x6AE3EFBB9DD441F3#64
  | 639 => 0x0E31D519421A63A5#64
  | 703 => 0x2E30203212CAC325#64
  | 767 => 0xE4CE2CD55FEA0037#64
  | 831 => 0x2FE3FD2920CE82EC#64
  | 895 => 0x947874DE595052CB#64
  | 959 => 0x9E735CB59B4724DA#64
  | 1023 => 0xD7D86B2AF73DE740#64
  | 1087 => 0x8757D71D4FCC1000#64
  | _ => 0#64

end Sys2Proof.Machine
end

