-- ==== Sys2Proof/Machine/TableEngine.lean ====
section
/-! DEFINITION. The Table Store and the Table Engine (40_table_engine.md). The ROM is computed from R101 and
R102, as R103 allows. -/

namespace Sys2Proof.Machine

/-- One reflected shift-register step (R101). -/
def crcBit (r : Word) : Word :=
  if r.getLsbD 0 then (r >>> 1) ^^^ polyR else r >>> 1

/-- `n` reflected shift-register steps. -/
def crcBits : Nat → Word → Word
  | 0, r => r
  | n + 1, r => crcBits n (crcBit r)

/-- `TBL[0][b]` (R101). -/
def tbl0 (b : Byte) : Word :=
  crcBits 8 (b.setWidth 64)

/-- The recurrence of R102 on one entry. -/
def nextEntry (t : Word) : Word :=
  (t >>> 8) ^^^ tbl0 (byteOf t 0)

/-- `TBL[k][b]` (R100 to R102). -/
def tbl : Nat → Byte → Word
  | 0, b => tbl0 b
  | k + 1, b => nextEntry (tbl k b)

/-- `TableStep` (R104). -/
def tableStep (r : Word) (x : Byte) : Word :=
  tbl 0 (byteOf r 0 ^^^ x) ^^^ (r >>> 8)

/-- `ByteSerial` (R105): the reference meaning of extending the register over a byte string. -/
def byteSerial (r : Word) (d : List Byte) : Word :=
  d.foldl tableStep r

/-- `Slice16` (R106) on the sixteen bytes `q`. -/
def slice16 (r : Word) (q : List Byte) : Word :=
  let x := r ^^^ le64 q 0
  tbl 15 (byteOf x 0) ^^^ tbl 14 (byteOf x 1) ^^^ tbl 13 (byteOf x 2) ^^^ tbl 12 (byteOf x 3)
    ^^^ tbl 11 (byteOf x 4) ^^^ tbl 10 (byteOf x 5) ^^^ tbl 9 (byteOf x 6) ^^^ tbl 8 (byteOf x 7)
    ^^^ tbl 7 (q.getD 8 0) ^^^ tbl 6 (q.getD 9 0) ^^^ tbl 5 (q.getD 10 0) ^^^ tbl 4 (q.getD 11 0)
    ^^^ tbl 3 (q.getD 12 0) ^^^ tbl 2 (q.getD 13 0) ^^^ tbl 1 (q.getD 14 0) ^^^ tbl 0 (q.getD 15 0)

/-- The two loops of R107: `chunks` slices of 16 bytes, then the remainder a byte at a time. -/
def tableLoop : Nat → Word → List Byte → Word
  | 0, r, d => d.foldl tableStep r
  | chunks + 1, r, d => tableLoop chunks (slice16 r (d.take 16)) (d.drop 16)

/-- `TableUpdate` (R107): the Table Engine. -/
def tableUpdate (r : Word) (d : List Byte) : Word :=
  tableLoop (d.length / 16) r d

end Sys2Proof.Machine
end

