-- ==== Sys2Proof/Machine/FoldEngine.lean ====
section
/-! DEFINITION. The Fold Engine (41_fold_engine.md): the carry-less multiplier, the folds, the lanes, the
fold-down, the Barrett reduction and the tail, as the pipeline of R131 runs them. The lanes and accumulators
live inside one update only (10_state.md R33). -/

namespace Sys2Proof.Machine

/-- The XOR of `a << i` over the set bits `i < n` of `b`. -/
def clmulBits (a b : Word) : Nat → Block
  | 0 => 0
  | n + 1 => clmulBits a b n ^^^ (if b.getLsbD n then a.setWidth 128 <<< n else 0)

/-- `clmul` (R120): the carry-less product. -/
def clmul (a b : Word) : Block :=
  clmulBits a b 64

/-- The low half `X[63:0]` of a 128-bit value. -/
def loHalf (x : Block) : Word := x.extractLsb' 0 64

/-- The high half `X[127:64]` of a 128-bit value. -/
def hiHalf (x : Block) : Word := x.extractLsb' 64 64

/-- `BLK(d, i)` (R122). -/
def blk (d : List Byte) (i : Nat) : Block :=
  le128 d (16 * i)

/-- `FOLD_D` (R123) by `dist` = D bytes. -/
def foldBy (dist : Nat) (x : Block) : Block :=
  clmul (loHalf x) (foldK (8 * dist + 63)) ^^^ clmul (hiHalf x) (foldK (8 * dist - 1))

/-- The eight lanes `L[0..7]` (R124). -/
structure Lanes where
  l0 : Block
  l1 : Block
  l2 : Block
  l3 : Block
  l4 : Block
  l5 : Block
  l6 : Block
  l7 : Block
deriving DecidableEq, Repr

/-- Lane initialisation, with the register injected into lane 0 (R122, R124). -/
def lanesInit (r : Word) (d : List Byte) : Lanes :=
  { l0 := blk d 0 ^^^ r.setWidth 128
    l1 := blk d 1
    l2 := blk d 2
    l3 := blk d 3
    l4 := blk d 4
    l5 := blk d 5
    l6 := blk d 6
    l7 := blk d 7 }

/-- One iteration `g` of the large-stride loop (R125). -/
def lanesStep (d : List Byte) (g : Nat) (l : Lanes) : Lanes :=
  { l0 := foldBy 128 l.l0 ^^^ blk d (8 * g)
    l1 := foldBy 128 l.l1 ^^^ blk d (8 * g + 1)
    l2 := foldBy 128 l.l2 ^^^ blk d (8 * g + 2)
    l3 := foldBy 128 l.l3 ^^^ blk d (8 * g + 3)
    l4 := foldBy 128 l.l4 ^^^ blk d (8 * g + 4)
    l5 := foldBy 128 l.l5 ^^^ blk d (8 * g + 5)
    l6 := foldBy 128 l.l6 ^^^ blk d (8 * g + 6)
    l7 := foldBy 128 l.l7 ^^^ blk d (8 * g + 7) }

/-- The lanes after the iterations 1 to `g` (R125). -/
def lanesAt (r : Word) (d : List Byte) : Nat → Lanes
  | 0 => lanesInit r d
  | g + 1 => lanesStep d (g + 1) (lanesAt r d g)

/-- Lane reduction (R126). -/
def lanesReduce (l : Lanes) : Block :=
  l.l7 ^^^ foldBy 112 l.l0 ^^^ foldBy 96 l.l1 ^^^ foldBy 80 l.l2 ^^^ foldBy 64 l.l3
    ^^^ foldBy 48 l.l4 ^^^ foldBy 32 l.l5 ^^^ foldBy 16 l.l6

/-- `count` whole blocks from block `i` on, one fold each (R127). -/
def foldBlocks (d : List Byte) : Nat → Nat → Block → Block
  | 0, _, acc => acc
  | count + 1, i, acc => foldBlocks d count (i + 1) (foldBy 16 acc ^^^ blk d i)

/-- `FOLD64` (R128): the 128 to 64 fold-down. -/
def fold64 (a : Block) : Block :=
  clmul (loHalf a) (foldK 127) ^^^ (hiHalf a).setWidth 128

/-- `BARRETT` (R129). -/
def barrett (t : Block) : Word :=
  let t1 := loHalf t
  let t0 := hiHalf t
  let c1 := clmul t1 muConst
  let q := t1 ^^^ (loHalf c1 <<< 1)
  let c2 := clmul q polyR
  c2.extractLsb' 63 64 ^^^ t0

/-- The accumulator before the remaining whole blocks, and the index of the first of them (R131). -/
def foldHead (r : Word) (d : List Byte) : Block × Nat :=
  let groups := d.length / 128
  if 1 ≤ groups then (lanesReduce (lanesAt r d (groups - 1)), 8 * groups)
  else (blk d 0 ^^^ r.setWidth 128, 1)

/-- `FoldUpdate` (R131): the Fold Engine. -/
def foldUpdate (r : Word) (d : List Byte) : Word :=
  if d.length < 16 then tableUpdate r d
  else
    let nb := d.length / 16
    let head := foldHead r d
    let acc := foldBlocks d (nb - head.2) head.2 head.1
    (d.drop (16 * nb)).foldl tableStep (barrett (fold64 acc))

end Sys2Proof.Machine
end

