-- ==== Sys2Proof/Machine/State.lean ====
section
/-! DEFINITION. The state of the block, of the data memory it reads and of the host actions still to reach
it (10_state.md), the state after reset (70_reset_and_hazards.md R220), and the reasons a step can stop. -/

namespace Sys2Proof.Machine

/-- The two update datapaths (00_scope.md R1). The codes 0 (none), 1 (FOLD) and 2 (TABLE) of `DISPATCH.STATE`
and `ctx.eng` are `Option Engine`; the code 3, which is never held, has no value (R23, R26, I8; log 12). -/
inductive Engine where
  | fold
  | table
deriving DecidableEq, Repr

/-- The error codes of 60_exceptions.md R200; the reserved codes 5 to 15, which are never written, have no
value (log 12). -/
inductive ErrorCode where
  | ok
  | illegalCommand
  | unbound
  | foldUnavailable
  | accessFault
deriving DecidableEq, Repr

/-- One digest context: the per-context registers of R25 to R29. `STATUS` is stored as its two stored fields
`CODE` and `STICKY`; its `BOUND` and `ENG` are views (R29). -/
structure Context where
  /-- The running CRC register (R25). -/
  crc : Word
  /-- The context is a live Digest (R26). -/
  bound : Bool
  /-- The engine binding (R26). -/
  eng : Option Engine
  /-- Operand register: buffer address (R27). -/
  arg0 : Word
  /-- Operand register: buffer length (R27). -/
  arg1 : Word
  /-- Result of the last successful SUM or SELECT (R28). -/
  result : Word
  /-- `STATUS.CODE` (R29). -/
  code : ErrorCode
  /-- `STATUS.STICKY` (R29). -/
  sticky : Bool
deriving DecidableEq, Repr

/-- What the outside does to the block, one action at a time in the order of arrival (R20, 20_memory.md R63). -/
inductive HostAction where
  /-- A store of the bytes `data` at host address `addr`, the byte at `addr` first (R58, R59). -/
  | store (addr : Nat) (data : List Byte)
  /-- A load of `width` bytes at host address `addr` (R58). -/
  | load (addr : Nat) (width : Nat)
  /-- A host's store of one byte into data memory (R34, R64). -/
  | setMem (addr : Nat) (value : Byte)
  /-- Power-on, or assertion of the reset input (70_reset_and_hazards.md R220). -/
  | blockReset
  /-- The platform drives the capability input to `value` (R222). -/
  | driveCaps (value : BitVec 3)
deriving DecidableEq, Repr

/-- The machine. `NUM_CONTEXTS` is the length of `ctxs`. -/
structure State where
  /-- The parameters `AW`, `ADMITTED`, `MMIO_BASE` (R5, R35; log 3). -/
  platform : Platform
  /-- The capability input `CAPS_IN` (R5, R222). -/
  capsIn : BitVec 3
  /-- `CAPS`: `CAPS_IN` as sampled at block reset; bits 63:3 read 0 (R21). -/
  caps : BitVec 3
  /-- `CONFIG.FORCE_TABLE`; bits 63:1 read 0 (R22). -/
  forceTable : Bool
  /-- `DISPATCH.STATE`: `none` is UNTESTED (R23). -/
  dispatch : Option Engine
  /-- The digest contexts, context 0 first (R25 to R29, R37). -/
  ctxs : List Context
  /-- Data memory (R34), in canonical form; an unlisted address reads 0 (log 5). -/
  dmem : List Host.Cell
  /-- The host actions that have not reached the block yet, the next one first (R20; log 1). -/
  pending : List HostAction
  /-- What loads have returned to hosts, newest first; no rule of the block reads it (log 7). -/
  reads : List (List Byte)
deriving DecidableEq, Repr

/-- Why the machine stops with a fault. No command faults: command errors are values in STATUS (R206). -/
inductive Fault where
  /-- Raised by `performAction` for a host's data-memory store at or past `2^AW`: no such address exists (R34,
  R51; log 6). Safe: the block performs no access there. -/
  | noSuchDataAddress
deriving DecidableEq, Repr

/-- Why a step has no meaning. -/
inductive Refusal where
  /-- Raised by an arm of `exec` whose instruction has no meaning yet; no arm raises it now. Safe. -/
  | notModelled (mnemonic : String)
  /-- Raised by `checkAccess` for a window access that is not 64 bits wide (R58, R214). Safe. -/
  | accessWidth
  /-- Raised by `checkAccess` for a host access outside the 8 KiB window (R214). Safe. -/
  | accessOutsideWindow
  /-- Raised by `checkAccess` for a window access that is not 8-byte aligned (R58, R214). Safe. -/
  | accessMisaligned
deriving DecidableEq, Repr

/-- A context after block reset (R220): unbound, crc = `INIT`, everything else 0. -/
def Context.reset : Context :=
  { crc := crcInit, bound := false, eng := none, arg0 := 0, arg1 := 0, result := 0, code := .ok, sticky := false }

/-- The machine after block reset with `n` contexts on platform `p` with input `capsIn` (R220): no data byte
listed, no host action pending, nothing read yet. -/
def State.powerOn (p : Platform) (n : Nat) (capsIn : BitVec 3) : State :=
  { platform := p
    capsIn := capsIn
    caps := capsIn
    forceTable := false
    dispatch := none
    ctxs := List.replicate n Context.reset
    dmem := []
    pending := []
    reads := [] }

/-- The machine right after reset, with the parameters `Config` names (log 3). -/
def State.reset : State :=
  State.powerOn Config.platform Config.numContexts Config.capsIn

end Sys2Proof.Machine
end

