-- ==== Sys2Proof/Machine/Flags.lean ====
section
/-! DEFINITION. The views of the status registers as the host reads them (10_state.md R21 to R24, R29) and the
one update of STATUS that every command ends with (60_exceptions.md R204). The block has no other flags (R36). -/

namespace Sys2Proof.Machine

/-- The two-bit code of an engine binding or of the latch: 0 none, 1 FOLD, 2 TABLE (R23, R26). -/
def engineBits : Option Engine → BitVec 2
  | none => 0
  | some .fold => 1
  | some .table => 2

/-- The values of `STATUS.CODE` (R200). -/
def ErrorCode.bits : ErrorCode → BitVec 4
  | .ok => 0
  | .illegalCommand => 1
  | .unbound => 2
  | .foldUnavailable => 3
  | .accessFault => 4

/-- `STATUS` as the host reads it: `CODE` 3:0, `STICKY` 8, `BOUND` 16, `ENG` 18:17, the rest 0 (R29). -/
def Context.statusWord (x : Context) : Word :=
  x.code.bits.setWidth 64
    ||| (BitVec.ofBool x.sticky).setWidth 64 <<< 8
    ||| (BitVec.ofBool x.bound).setWidth 64 <<< 16
    ||| (engineBits x.eng).setWidth 64 <<< 17

/-- The end of every command: `CODE` is written, and `STICKY` is set when the code is not OK (R160, R204). -/
def Context.setCode (x : Context) (code : ErrorCode) : Context :=
  { x with code := code, sticky := x.sticky || decide (code ≠ .ok) }

/-- `CAPS` as the host reads it (R21). -/
def State.capsWord (s : State) : Word :=
  s.caps.setWidth 64

/-- `CONFIG` as the host reads it (R22). -/
def State.configWord (s : State) : Word :=
  (BitVec.ofBool s.forceTable).setWidth 64

/-- `DISPATCH` as the host reads it (R23). -/
def State.dispatchWord (s : State) : Word :=
  (engineBits s.dispatch).setWidth 64

/-- `NCTX` as the host reads it: `NUM_CONTEXTS` in bits 6:0 (R24). -/
def State.nctxWord (s : State) : Word :=
  (BitVec.ofNat 7 s.ctxs.length).setWidth 64

end Sys2Proof.Machine
end

