-- ==== Sys2Proof/Machine/Operands.lean ====
section
/-! DEFINITION. Data memory (20_memory.md R51, R52), range admission (R53) and the one operand form of the
commands: the buffer that `arg0` and `arg1` name (43_digest_commands.md R163). -/

namespace Sys2Proof.Machine

/-! ## Data memory -/

/-- The canonical form: addresses strictly rise, and no listed byte is the 0 that an unlisted one reads as. -/
abbrev MemoryWf (m : List Host.Cell) : Prop :=
  m.Pairwise (fun x y => x.1 < y.1) ∧ ∀ x ∈ m, x.2 ≠ 0

/-- DESIGN CHOICE (log 5): what a byte that nothing has written reads as. -/
def unlistedByte : Byte := 0

/-- `DMEM[a]`. -/
def readByte (m : List Host.Cell) (a : Nat) : Byte :=
  match m with
  | [] => unlistedByte
  | (k, v) :: rest => if k = a then v else readByte rest a

/-- The memory with `DMEM[a] = b`, in canonical form. -/
def writeByte (m : List Host.Cell) (a : Nat) (b : Byte) : List Host.Cell :=
  match m with
  | [] => if b = unlistedByte then [] else [(a, b)]
  | (k, v) :: rest =>
    if a < k then (if b = unlistedByte then (k, v) :: rest else (a, b) :: (k, v) :: rest)
    else if a = k then (if b = unlistedByte then rest else (a, b) :: rest)
    else (k, v) :: writeByte rest a b

/-- `MemRead(a, n)`: the `n` bytes from `a` on, in ascending order (00_scope.md R8, R52). -/
def memRead (m : List Host.Cell) (a : Nat) : Nat → List Byte
  | 0 => []
  | n + 1 => readByte m a :: memRead m (a + 1) n

/-! ## Admission -/

/-- `ADMITTED(a)` (R5). -/
def admits (p : Platform) (a : Nat) : Bool :=
  p.admitted.any (fun r => r.holds a)

/-- Every byte of the `n` bytes from `a` on is admitted (R53). -/
def admitsAll (p : Platform) (a : Nat) : Nat → Bool
  | 0 => true
  | n + 1 => admits p a && admitsAll p (a + 1) n

/-! ## The buffer operand -/

/-- `WriteBuffer` (R163): the bytes `arg0` and `arg1` name, or ACCESS_FAULT. Sums are exact integers, and a
length of 0 is neither checked nor read (R53, R54). -/
def writeBuffer (s : State) (x : Context) : Except ErrorCode (List Byte) :=
  let a := x.arg0.toNat
  let n := x.arg1.toNat
  if n = 0 then .ok []
  else if 2 ^ s.platform.aw < a + n then .error .accessFault
  else if admitsAll s.platform a n then .ok (memRead s.dmem a n)
  else .error .accessFault

end Sys2Proof.Machine
end

