-- ==== Sys2Proof/Machine/Ops.lean ====
section
/-! DEFINITION. The operations every command shares: committing its effects or reporting its error
(43_digest_commands.md R160, 60_exceptions.md R203, R204), and block reset (70_reset_and_hazards.md R220).
The block has no trap entry and no trap return (R206, R207): a command's error is a value in STATUS, and
`failCommand` is what stands in their place. -/

namespace Sys2Proof.Machine

/-- What a completed command commits: the new contents of its own context and the latch. Nothing else of the
state can be written by a command (R171). -/
structure Commit where
  dispatch : Option Engine
  ctx : Context

/-- The state with `x` as context `c`. -/
def State.setCtx (s : State) (c : Nat) (x : Context) : State :=
  { s with ctxs := s.ctxs.set c x }

/-- A command completes: all its writes together, and CODE = OK (R160, R204). -/
def commitCommand (s : State) (c : Nat) (e : Commit) : State :=
  { s with dispatch := e.dispatch, ctxs := s.ctxs.set c (e.ctx.setCode .ok) }

/-- A command on context `c`, which holds `x`, fails: CODE and STICKY of that context, and nothing else (R203). -/
def failCommand (s : State) (c : Nat) (x : Context) (code : ErrorCode) : State :=
  s.setCtx c (x.setCode code)

/-- A command as one atomic step (R160): `body` gives the command's writes, or the error it raises. A command
to an absent context is ignored (20_memory.md R60). -/
def runCommand (s : State) (c : Nat) (body : Context → Except ErrorCode Commit) :
    Host.Outcome State Fault Refusal :=
  match s.ctxs[c]? with
  | none => .next s
  | some x =>
    match body x with
    | .ok e => .next (commitCommand s c e)
    | .error code => .next (failCommand s c x code)

/-- A command that needs a live Digest: UNBOUND first where there is none (R202, 92_eei_decisions.md D24). -/
def needBound (x : Context) (body : Except ErrorCode Commit) : Except ErrorCode Commit :=
  if x.bound then body else .error .unbound

/-- Block reset (R220): every register of the block, with `CAPS_IN` sampled (R222). Data memory is not the
block's, and the host's queue and what hosts have read stand outside it (log 11). -/
def blockReset (s : State) : State :=
  { s with
    caps := s.capsIn
    forceTable := false
    dispatch := none
    ctxs := s.ctxs.map (fun _ => Context.reset) }

end Sys2Proof.Machine
end

