-- ==== Sys2Proof/Machine/Resolver.lean ====
section
/-! DEFINITION. Capability dispatch (42_dispatch.md): the capability predicate, the write-once latch, the
binding NEW makes, and the update a binding stands for. -/

namespace Sys2Proof.Machine

/-- `FOLD_OK` (R150): CLMUL, VEC and VALID are all 1. -/
def foldOk (caps : BitVec 3) : Bool :=
  caps.getLsbD 0 && caps.getLsbD 1 && caps.getLsbD 2

/-- `Resolve()` (R151): the decision returned, and the latch after the call. -/
def resolve (s : State) : Engine × Option Engine :=
  match s.dispatch with
  | none =>
    let e := if foldOk s.caps then Engine.fold else Engine.table
    (e, some e)
  | some e => (e, some e)

/-- The engine a NEW binds, and the latch after it (R154): with the override on, TABLE and no probe. -/
def bindNew (s : State) : Engine × Option Engine :=
  if s.forceTable then (.table, s.dispatch) else resolve s

/-- The update a binding stands for (43_digest_commands.md R164): the Fold Engine if `eng` = 1, else the Table Engine. -/
def boundUpdate (eng : Option Engine) (r : Word) (d : List Byte) : Word :=
  if eng = some .fold then foldUpdate r d else tableUpdate r d

end Sys2Proof.Machine
end

