-- ==== Sys2Proof/Machine/Digest.lean ====
section
/-! DEFINITION. The meaning of each command (43_digest_commands.md R161 to R169). -/

namespace Sys2Proof.Machine

/-- The part the three WRITE commands share once their checks on the context have passed: fetch the buffer,
then load the register with the engine's result (R164 to R166). -/
def extendCrc (s : State) (x : Context) (update : Word → List Byte → Word) : Except ErrorCode Commit :=
  match writeBuffer s x with
  | .ok d => .ok { dispatch := s.dispatch, ctx := { x with crc := update x.crc d } }
  | .error code => .error code

/-- NEW (R161). -/
def execNew (c : Nat) (s : State) : Host.Outcome State Fault Refusal :=
  runCommand s c fun x =>
    let b := bindNew s
    .ok { dispatch := b.2, ctx := { x with eng := some b.1, bound := true, crc := crcInit } }

/-- RESET (R162). -/
def execReset (c : Nat) (s : State) : Host.Outcome State Fault Refusal :=
  runCommand s c fun x =>
    needBound x (.ok { dispatch := s.dispatch, ctx := { x with crc := crcInit } })

/-- WRITE (R164). -/
def execWrite (c : Nat) (s : State) : Host.Outcome State Fault Refusal :=
  runCommand s c fun x => needBound x (extendCrc s x (boundUpdate x.eng))

/-- WRITE.T (R165). -/
def execWriteT (c : Nat) (s : State) : Host.Outcome State Fault Refusal :=
  runCommand s c fun x => needBound x (extendCrc s x tableUpdate)

/-- WRITE.F (R166): FOLD_UNAVAILABLE comes after UNBOUND and before ACCESS_FAULT (R202). -/
def execWriteF (c : Nat) (s : State) : Host.Outcome State Fault Refusal :=
  runCommand s c fun x =>
    needBound x (if foldOk s.caps then extendCrc s x foldUpdate else .error .foldUnavailable)

/-- SUM (R167). -/
def execSum (c : Nat) (s : State) : Host.Outcome State Fault Refusal :=
  runCommand s c fun x =>
    needBound x (.ok { dispatch := s.dispatch, ctx := { x with result := x.crc ^^^ xorOut } })

/-- SELECT (R168). -/
def execSelect (c : Nat) (s : State) : Host.Outcome State Fault Refusal :=
  runCommand s c fun x =>
    let d := resolve s
    .ok { dispatch := d.2, ctx := { x with result := (engineBits (some d.1)).setWidth 64 } }

/-- DROP (R169). -/
def execDrop (c : Nat) (s : State) : Host.Outcome State Fault Refusal :=
  runCommand s c fun x =>
    needBound x (.ok { dispatch := s.dispatch, ctx := { x with bound := false, eng := none, crc := crcInit } })

end Sys2Proof.Machine
end

