-- ==== Sys2Proof/Machine/Dispatch.lean ====
section
/-! DEFINITION. One arm per command: its meaning in 43_digest_commands.md. -/

namespace Sys2Proof.Machine

def exec (i : Instr) (s : State) : Host.Outcome State Fault Refusal :=
  match i with
  | .new c => Sys2Proof.Machine.execNew c s
  | .reset c => Sys2Proof.Machine.execReset c s
  | .write c => Sys2Proof.Machine.execWrite c s
  | .writeT c => Sys2Proof.Machine.execWriteT c s
  | .writeF c => Sys2Proof.Machine.execWriteF c s
  | .sum c => Sys2Proof.Machine.execSum c s
  | .select c => Sys2Proof.Machine.execSelect c s
  | .drop c => Sys2Proof.Machine.execDrop c s

end Sys2Proof.Machine
end

