-- ==== Sys2Proof/Machine/HostPort.lean ====
section
/-! DEFINITION. The register window as hosts load and store it (20_memory.md R57 to R61), a command store
(43_digest_commands.md R160), and what each host action does. -/

namespace Sys2Proof.Machine

/-- The offset of an admitted window access of `width` bytes at host address `addr`; every other access is
refused, with no effect (R58, R214). -/
def checkAccess (s : State) (addr width : Nat) : Except Refusal Nat :=
  if width ≠ 8 then .error .accessWidth
  else if addr < s.platform.mmioBase ∨ s.platform.mmioBase + Config.windowSize ≤ addr then
    .error .accessOutsideWindow
  else if (addr - s.platform.mmioBase) % 8 ≠ 0 then .error .accessMisaligned
  else .ok (addr - s.platform.mmioBase)

/-- A field of context `c` as the host reads it; 0 where there is no such context (R60). -/
def ctxWord (s : State) (c : Nat) (field : Context → Word) : Word :=
  match s.ctxs[c]? with
  | some x => field x
  | none => 0

/-- The value a load of a window register returns (R60, R61). -/
def loadReg (s : State) : WindowReg → Word
  | .caps => s.capsWord
  | .config => s.configWord
  | .dispatch => s.dispatchWord
  | .nctx => s.nctxWord
  | .cmd _ => 0
  | .arg0 c => ctxWord s c Context.arg0
  | .arg1 c => ctxWord s c Context.arg1
  | .result c => ctxWord s c Context.result
  | .status c => ctxWord s c Context.statusWord
  | .reserved => 0

/-- A store of word `w` to CMD of context `c` (R160): an illegal word fails with ILLEGAL_COMMAND (R75), a
command word runs its command. -/
def storeCmd (s : State) (c : Nat) (w : Word) : Host.Outcome State Fault Refusal :=
  match decode c w with
  | .ok i => exec i s
  | .error _ => runCommand s c fun _ => .error .illegalCommand

/-- A store to a writable field of context `c` (R27). -/
def storeField (s : State) (c : Nat) (f : Context → Context) : State :=
  match s.ctxs[c]? with
  | some x => s.setCtx c (f x)
  | none => s

/-- A store of word `w` to a window register (R60, R61): read-only and reserved locations ignore it, and
CONFIG takes bit 0 (R22). -/
def storeReg (s : State) (r : WindowReg) (w : Word) : Host.Outcome State Fault Refusal :=
  match r with
  | .cmd c => storeCmd s c w
  | .config => .next { s with forceTable := w.getLsbD 0 }
  | .arg0 c => .next (storeField s c fun x => { x with arg0 := w })
  | .arg1 c => .next (storeField s c fun x => { x with arg1 := w })
  | .caps => .next s
  | .dispatch => .next s
  | .nctx => .next s
  | .result _ => .next s
  | .status _ => .next s
  | .reserved => .next s

/-- What one host action does (R20, R63). -/
def performAction (s : State) : HostAction → Host.Outcome State Fault Refusal
  | .store addr data =>
    match checkAccess s addr data.length with
    | .ok off => storeReg s (windowReg s.ctxs.length off) (le64 data 0)
    | .error e => .refused e
  | .load addr width =>
    match checkAccess s addr width with
    | .ok off => .next { s with reads := wordBytes (loadReg s (windowReg s.ctxs.length off)) :: s.reads }
    | .error e => .refused e
  | .setMem a b =>
    if a < 2 ^ s.platform.aw then .next { s with dmem := writeByte s.dmem a b }
    else .fault .noSuchDataAddress
  | .blockReset => .next (blockReset s)
  | .driveCaps v => .next { s with capsIn := v }

/-- The host action that issues the command word `w` on context `c` (30_encoding.md R79). -/
def cmdStore (s : State) (c : Nat) (w : Word) : HostAction :=
  .store (s.platform.mmioBase + ctxOffset c) (wordBytes w)

/-- The next host action leaves the queue and is performed; with none pending the block is idle and holds its
state (60_exceptions.md R213, 70_reset_and_hazards.md R231; log 2). -/
def takeAction (s : State) : Host.Outcome State Fault Refusal :=
  match s.pending with
  | [] => .next s
  | a :: rest => performAction { s with pending := rest } a

end Sys2Proof.Machine
end

