-- ==== Sys2Proof/Machine/Step.lean ====
section
/-! DEFINITION. One step of the machine: the next host action in the total order of 20_memory.md R63. -/

namespace Sys2Proof.Machine

/-- One step. -/
def step (s : State) : Host.Outcome State Fault Refusal :=
  takeAction s

/-- The state in which the next host action stores the command word `w` to CMD of context 0: the block fetches
nothing, its next command is the next CMD store that reaches it (R20; log 1, log 8). -/
def State.withFetchWord (s : State) (nbits w : Nat) : State :=
  { s with pending := cmdStore s 0 (BitVec.ofNat 64 (w % 2 ^ nbits)) :: s.pending }

end Sys2Proof.Machine
end

