-- ==== Sys2Proof/Machine/Reference.lean ====
section
/-! DEFINITION. The spec's own reference readings, for statements about the datapaths: polynomials over GF(2)
(00_scope.md R9), the formulas of the fold constants (41_fold_engine.md R121), and the ROM's basis table
(40_table_engine.md R103). The machine uses none of them. -/

namespace Sys2Proof.Machine

open Polynomial

/-! ## Polynomial readings (R9) -/

/-- `p` is `poly64(v)`. -/
def ReadsWord (v : Word) (p : (ZMod 2)[X]) : Prop :=
  p = ∑ i ∈ Finset.range 64, if v.getLsbD i then X ^ (63 - i) else 0

/-- `p` is `poly128(w)`. -/
def ReadsBlock (w : Block) (p : (ZMod 2)[X]) : Prop :=
  p = ∑ k ∈ Finset.range 128, if w.getLsbD k then X ^ (127 - k) else 0

/-- `p` is `P(x)`. -/
def ReadsGenerator (p : (ZMod 2)[X]) : Prop :=
  p = X ^ 64 + ∑ j ∈ Finset.range 64, if polyN.getLsbD j then X ^ j else 0

/-- `p` is `msg(d)`. -/
def ReadsMessage (d : List Byte) (p : (ZMod 2)[X]) : Prop :=
  p = ∑ j ∈ Finset.range d.length, ∑ b ∈ Finset.range 8,
    if (d.getD j 0).getLsbD b then X ^ (8 * (d.length - 1 - j) + 7 - b) else 0

/-! ## Formulas of the fold constants (R121) -/

/-- `x^n mod P`, bit j the coefficient of x^j. -/
def xPowMod : Nat → Word
  | 0 => 1
  | n + 1 => (xPowMod n <<< 1) ^^^ (if (xPowMod n).getLsbD 63 then polyN else 0)

/-- `floor(x^n / P)`, bit j the coefficient of x^j: dividing x^(n+1) shifts in the bit that leaves the remainder. -/
def xPowDiv : Nat → Nat
  | 0 => 0
  | n + 1 => 2 * xPowDiv n + (if (xPowMod n).getLsbD 63 then 1 else 0)

/-- `u` is `rev_64(v)` (R6). -/
def IsReverse (u v : Word) : Prop :=
  ∀ i, i < 64 → u.getLsbD i = v.getLsbD (63 - i)

/-- The sixteen `n` of R121's table of `K(n)`. -/
def foldExponents : List Nat :=
  [127, 191, 255, 319, 383, 447, 511, 575, 639, 703, 767, 831, 895, 959, 1023, 1087]

/-- The fold distances of R123. -/
def foldDistances : List Nat :=
  [16, 32, 48, 64, 80, 96, 112, 128]

/-! ## The basis of the Table Store (R103) -/

/-- Row k of R103's table: `TBL[k][1 << i]` for i = 0 to 7. -/
def romBasis : List (List Word) :=
  [[0xB32E4CBE03A75F6F, 0xF4843657A840A05B, 0x7BD0C384FF8F5E33, 0xF7A18709FF1EBC66,
    0x7D9BA13851336649, 0xFB374270A266CC92, 0x64B62BCAEBC387A1, 0xC96C5795D7870F42]] ++
  [[0x54E979925CD0F10D, 0xA9D2F324B9A1E21A, 0xC17D4962DC4DDAB1, 0x10223DEE1795ABE7,
    0x20447BDC2F2B57CE, 0x4088F7B85E56AF9C, 0x8111EF70BCAD5F38, 0x90FB71CAD654A0F5]] ++
  [[0x3F0BE14A916A6DCB, 0x7E17C29522D4DB96, 0xFC2F852A45A9B72C, 0x6A87A57F245D70DD,
    0xD50F4AFE48BAE1BA, 0x38C63AD73E7BDDF1, 0x718C75AE7CF7BBE2, 0xE318EB5CF9EF77C4]] ++
  [[0x1DEE8A5E222CA1DC, 0x3BDD14BC445943B8, 0x77BA297888B28770, 0xEF7452F111650EE0,
    0x4C300AC98DC40345, 0x986015931B88068A, 0xA218840D981E1391, 0xD6E9A7309F3239A7]] ++
  [[0x5C2D776033C4205E, 0xB85AEEC0678840BC, 0xE26D72AB601E9FFD, 0x56024A7D6F33217F,
    0xAC0494FADE6642FE, 0xCAD186DE13C29B79, 0x077BA297888B2877, 0x0EF7452F111650EE]] ++
  [[0x6184D55F721267C6, 0xC309AABEE424CF8C, 0x14CBFA566747819D, 0x2997F4ACCE8F033A,
    0x532FE9599D1E0674, 0xA65FD2B33A3C0CE8, 0xDE670A4DDB760755, 0x2E16BBB019E2102F]] ++
  [[0x22EF0D5934F964EC, 0x45DE1AB269F2C9D8, 0x8BBC3564D3E593B0, 0x85A0C5E208C539E5,
    0x999924EFBE846D4F, 0xA1EAE6F4D206C41B, 0xD10D62C20B0396B3, 0x30C26AAFB90933E3]] ++
  [[0xDABE95AFC7875F40, 0x27A584742000A005, 0x4F4B08E84001400A, 0x9E9611D080028014,
    0xAFF48C8AAF0B1EAD, 0xCD31B63EF11823DF, 0x08BBC3564D3E593B, 0x117786AC9A7CB276]] ++
  [[0x646C955F440400FE, 0xC8D92ABE880801FC, 0x036AFA56BF1E1D7D, 0x06D5F4AD7E3C3AFA,
    0x0DABE95AFC7875F4, 0x1B57D2B5F8F0EBE8, 0x36AFA56BF1E1D7D0, 0x6D5F4AD7E3C3AFA0]] ++
  [[0x53E7815838846436, 0xA7CF02B07108C86C, 0xDD46AA4B4D1F8E5D, 0x2855FBBD3531023F,
    0x50ABF77A6A62047E, 0xA157EEF4D4C408FC, 0xD07772C206860F7D, 0x32364AAFA202007F]] ++
  [[0x09ABF11AFCA2D0D7, 0x1357E235F945A1AE, 0x26AFC46BF28B435C, 0x4D5F88D7E51686B8,
    0x9ABF11AFCA2D0D70, 0xA7A68C743B540465, 0xDD95B7C3D9A6164F, 0x29F3C0AC1C42321B]] ++
  [[0xEC32CFFB23E3ED7D, 0x4ABD30DDE8C9C47F, 0x957A61BBD19388FE, 0xB82C6C5C0C290F79,
    0xE2807793B75C0077, 0x57D8400CC1B61E6B, 0xAFB08019836C3CD6, 0xCDB9AF18A9D66729]] ++
  [[0xDDA9F27EE08373AD, 0x298B4BD66E08F9DF, 0x531697ACDC11F3BE, 0xA62D2F59B823E77C,
    0xDE82F198DF49D07D, 0x2FDD4C1A119DBE7F, 0x5FBA9834233B7CFE, 0xBF7530684676F9FC]] ++
  [[0x0DD9B4240837FD99, 0x1BB36848106FFB32, 0x3766D09020DFF664, 0x6ECDA12041BFECC8,
    0xDD9B4240837FD990, 0x29EE2BAAA9F1ADA5, 0x53DC575553E35B4A, 0xA7B8AEAAA7C6B694]] ++
  [[0xF075E4AE5E05BDFF, 0x723366771305657B, 0xE466CCEE260ACAF6, 0x5A1536F7E31B8B69,
    0xB42A6DEFC63716D2, 0xFA8C74F423603321, 0x67C046C3E9CE78C7, 0xCF808D87D39CF18E]] ++
  [[0xE05DD497CA393AE4, 0x526306043B7C6B4D, 0xA4C60C0876F8D69A, 0xDB54B73B42FFB3B1,
    0x2471C15D2AF179E7, 0x48E382BA55E2F3CE, 0x91C70574ABC5E79C, 0xB156A5C2F885D1BD]]

end Sys2Proof.Machine
end

