-- ==== Sys2Proof/Safety.lean ====
section
/-! DEFINITION. What counts as a safe run: the invariant every step keeps, which host actions the block and its
platform admit, and the words statements use for "everything else is unchanged". -/

namespace Sys2Proof.Machine

/-- The invariant of every state a run from reset reaches; each field names the rule it rests on. -/
structure State.Inv (s : State) : Prop where
  /-- The parameters are in R5's bounds. -/
  platform_wf : s.platform.wf = true
  /-- `1 ≤ NUM_CONTEXTS ≤ 64` (R5). -/
  contexts : 1 ≤ s.ctxs.length ∧ s.ctxs.length ≤ Config.maxContexts
  /-- Data memory is in canonical form. -/
  memory : MemoryWf s.dmem
  /-- Data memory holds addresses below `2^AW` only (R34). -/
  memory_space : ∀ cell ∈ s.dmem, cell.1 < 2 ^ s.platform.aw
  /-- `bound = 0 ⇔ eng = 0` (R26). -/
  binding : ∀ x ∈ s.ctxs, (x.bound = false ↔ x.eng = none)
  /-- `eng` = 1 only if `FOLD_OK`, and then the latch says FOLD (R154). -/
  fold_binding : ∀ x ∈ s.ctxs, x.eng = some .fold → foldOk s.caps = true ∧ s.dispatch = some .fold
  /-- A resolved latch holds the capability decision (R151, R152). -/
  latch : ∀ e, s.dispatch = some e → (e = .fold ↔ foldOk s.caps = true)
  /-- A context that is no Digest holds `INIT` (R25, R169, R220). -/
  unbound_crc : ∀ x ∈ s.ctxs, x.bound = false → x.crc = crcInit
  /-- A context whose last command failed has STICKY set (R204). -/
  sticky_set : ∀ x ∈ s.ctxs, x.code ≠ .ok → x.sticky = true

/-- A window access the block admits: 8 bytes wide, inside the window, 8-byte aligned (R58, R214). -/
def AdmittedAccess (s : State) (addr width : Nat) : Prop :=
  width = 8 ∧ s.platform.mmioBase ≤ addr ∧ addr < s.platform.mmioBase + Config.windowSize
    ∧ (addr - s.platform.mmioBase) % 8 = 0

/-- The next action is the bus store of word `w` at window offset `off` (R58, R59). -/
def StoresNext (s : State) (off : Nat) (w : Word) (rest : List HostAction) : Prop :=
  s.pending = .store (s.platform.mmioBase + off) (wordBytes w) :: rest

/-- The next action is the bus load of the register at window offset `off`. -/
def LoadsNext (s : State) (off : Nat) (rest : List HostAction) : Prop :=
  s.pending = .load (s.platform.mmioBase + off) 8 :: rest

/-- The buffer of context contents `x` may be read: it is empty, or it ends by `2^AW` and every byte of it is
admitted (R53, R54). -/
def BufferReadable (s : State) (x : Context) : Prop :=
  x.arg1.toNat = 0 ∨
    (x.arg0.toNat + x.arg1.toNat ≤ 2 ^ s.platform.aw ∧
      ∀ k, k < x.arg1.toNat → admits s.platform (x.arg0.toNat + k) = true)

/-- The bytes of that buffer in ascending address order (R52). -/
def bufferBytes (s : State) (x : Context) : List Byte :=
  (List.range x.arg1.toNat).map fun k => readByte s.dmem (x.arg0.toNat + k)

/-- Nothing but the contents of context `c` and the latch differs. -/
def SameOutside (c : Nat) (s t : State) : Prop :=
  t.platform = s.platform ∧ t.capsIn = s.capsIn ∧ t.caps = s.caps ∧ t.forceTable = s.forceTable
    ∧ (∀ a, readByte t.dmem a = readByte s.dmem a) ∧ t.dmem = s.dmem
    ∧ t.pending = s.pending ∧ t.reads = s.reads
    ∧ t.ctxs.length = s.ctxs.length ∧ ∀ c', c' ≠ c → t.ctxs[c']? = s.ctxs[c']?

/-- The next action is not a block reset. -/
def NotResetting (s : State) : Prop :=
  ∀ rest, s.pending ≠ .blockReset :: rest

/-- Several commands one after the other, with no host action between them. -/
def execList : List Instr → State → Host.Outcome State Fault Refusal
  | [], s => .next s
  | i :: is, s =>
    match exec i s with
    | .next t => execList is t
    | .fault f => .fault f
    | .refused r => .refused r

end Sys2Proof.Machine
end

