-- ==== Sys2Proof/Certificates/Slice0/Obligations.lean ====
section
/-! DEFINITION. The statements for the provers, from the numbered rules of spec/. -/

open Sys2Proof Sys2Proof.Machine Polynomial

/-! ## Encoding -/

/-- The decoder and the encoder are inverse to each other: a store of word `w` at offset `off` asks for the
command `i` exactly when `i` is well-formed and `(off, w)` is its encoding (30_encoding.md sections 1 to 3). -/
def Obligations.DecodeIsTheInverseOfEncode : Prop :=
  ∀ (off : Nat) (w : Word) (i : Instr),
    decodeStore off w = some (.ok i) ↔ i.wellFormed = true ∧ encode i = (off, w)

/-- R74: eight words decode to a command, each to its own, and every other word is ILLEGAL. -/
def Obligations.EightWordsDecodeAndNoOther : Prop :=
  ∀ (c : Nat) (w : Word),
    (decode c w = .ok (.new c) ↔ w = 0x1) ∧
    (decode c w = .ok (.reset c) ↔ w = 0x2) ∧
    (decode c w = .ok (.write c) ↔ w = 0x3) ∧
    (decode c w = .ok (.writeT c) ↔ w = 0x103) ∧
    (decode c w = .ok (.writeF c) ↔ w = 0x203) ∧
    (decode c w = .ok (.sum c) ↔ w = 0x4) ∧
    (decode c w = .ok (.select c) ↔ w = 0x5) ∧
    (decode c w = .ok (.drop c) ↔ w = 0x6) ∧
    ((∃ e, decode c w = .error e) ↔
      w ≠ 0x1 ∧ w ≠ 0x2 ∧ w ≠ 0x3 ∧ w ≠ 0x103 ∧ w ≠ 0x203 ∧ w ≠ 0x4 ∧ w ≠ 0x5 ∧ w ≠ 0x6)

/-- R80: the encoding examples. -/
def Obligations.EncodingExamplesOfTheSpec : Prop :=
  encode (.writeF 2) = (0x180, 0x203) ∧
  ∀ c : Nat,
    decode c 0x0000000000000403 = .error .reservedBits ∧
    decode c 0x0000000000000303 = .error .reservedEngine ∧
    decode c 0x0000000000000104 = .error .engineNotAllowed

/-- R73: a reserved bit, or an engine where `OP` is not 0x03, makes a word illegal. R75: an illegal word stored to
CMD changes nothing but that context's STATUS, which reports ILLEGAL_COMMAND.
The store leaves the queue (the model's form, log 1). -/
def Obligations.IllegalWordOnlyReports : Prop :=
  (∀ (c : Nat) (w : Word),
    rsvField w ≠ 0 ∨ (opField w ≠ 0x03 ∧ engField w ≠ 0) → ∃ e, decode c w = .error e) ∧
  ∀ (s : State) (c : Nat) (w : Word) (rest : List HostAction) (x : Context) (e : DecodeError),
    StoresNext s (ctxOffset c) w rest → c < 64 → s.ctxs[c]? = some x → decode c w = .error e →
    step s = .next { s with
      pending := rest
      ctxs := s.ctxs.set c { x with code := .illegalCommand, sticky := true } }

/-! ## The step -/

/-- The bytes of a store to CMD of a present context that decode to the command `i` run `i`, with the store
taken from the queue (20_memory.md sections 4 and 6, 43_digest_commands.md; log 1). -/
def Obligations.StepRunsTheDecodedCommand : Prop :=
  ∀ (s : State) (c : Nat) (data : List Byte) (rest : List HostAction) (i : Instr),
    s.pending = .store (s.platform.mmioBase + ctxOffset c) data :: rest →
    c < 64 → c < s.ctxs.length → decodeBytes c data = .ok i →
    step s = exec i { s with pending := rest }

/-- With no host action pending the block is idle and holds all its state (60_exceptions.md section 6; that an
idle step is a step at all is the model's choice, log 2). -/
def Obligations.IdleBlockHoldsItsState : Prop :=
  ∀ s : State, s.pending = [] → step s = .next s

/-- R214: a window access that is not admitted is refused, and no admitted access is. -/
def Obligations.OnlyUnadmittedAccessesAreRefused : Prop :=
  (∀ (s : State) (addr : Nat) (data : List Byte) (rest : List HostAction),
    s.pending = .store addr data :: rest →
    (¬ AdmittedAccess s addr data.length →
      step s = .refused .accessWidth ∨ step s = .refused .accessOutsideWindow ∨ step s = .refused .accessMisaligned) ∧
    (AdmittedAccess s addr data.length → ∃ t, step s = .next t)) ∧
  (∀ (s : State) (addr width : Nat) (rest : List HostAction),
    s.pending = .load addr width :: rest →
    (¬ AdmittedAccess s addr width →
      step s = .refused .accessWidth ∨ step s = .refused .accessOutsideWindow ∨ step s = .refused .accessMisaligned) ∧
    (AdmittedAccess s addr width → ∃ t, step s = .next t))

/-- A load of a global register returns its value and changes nothing else (10_state.md section 2; that the
value is recorded in `reads` is the model's form, log 7). -/
def Obligations.LoadsOfGlobalRegisters : Prop :=
  ∀ (s : State) (rest : List HostAction), s.ctxs.length ≤ 64 →
    (LoadsNext s 0x000 rest →
      step s = .next { s with pending := rest, reads := wordBytes (s.caps.setWidth 64) :: s.reads }) ∧
    (LoadsNext s 0x008 rest →
      step s = .next { s with pending := rest, reads := wordBytes (if s.forceTable then 1 else 0) :: s.reads }) ∧
    (LoadsNext s 0x010 rest → ∀ v : Word,
      v = (if s.dispatch = none then 0 else if s.dispatch = some .fold then 1 else 2) →
      step s = .next { s with pending := rest, reads := wordBytes v :: s.reads }) ∧
    (LoadsNext s 0x018 rest →
      step s = .next { s with pending := rest, reads := wordBytes (BitVec.ofNat 64 s.ctxs.length) :: s.reads })

/-- A load of a register of a present context returns its value and changes nothing else (10_state.md
section 3, 20_memory.md section 4; log 7). -/
def Obligations.LoadsOfContextRegisters : Prop :=
  ∀ (s : State) (c : Nat) (x : Context) (rest : List HostAction), c < 64 → s.ctxs[c]? = some x →
    (LoadsNext s (ctxOffset c + 0x08) rest →
      step s = .next { s with pending := rest, reads := wordBytes x.arg0 :: s.reads }) ∧
    (LoadsNext s (ctxOffset c + 0x10) rest →
      step s = .next { s with pending := rest, reads := wordBytes x.arg1 :: s.reads }) ∧
    (LoadsNext s (ctxOffset c + 0x18) rest →
      step s = .next { s with pending := rest, reads := wordBytes x.result :: s.reads }) ∧
    (LoadsNext s (ctxOffset c + 0x20) rest →
      step s = .next { s with pending := rest, reads := wordBytes x.statusWord :: s.reads })

/-- The layout of STATUS: CODE in 3:0, STICKY in 8, BOUND in 16, ENG in 18:17, every other bit 0 (10_state.md
section 3). -/
def Obligations.StatusWordLayout : Prop :=
  ∀ (x : Context) (i : Nat),
    x.statusWord.getLsbD i =
      if i < 4 then x.code.bits.getLsbD i
      else if i = 8 then x.sticky
      else if i = 16 then x.bound
      else if i = 17 then decide (x.eng = some .fold)
      else if i = 18 then decide (x.eng = some .table)
      else false

/-- R60: reserved offsets, absent contexts and CMD read 0; reserved offsets, absent contexts and read-only
registers ignore stores; CONFIG takes bit 0 of a store.
The access leaves the queue and `reads` records a load (the model's form, log 1, log 7). -/
def Obligations.ReservedAndReadOnlyLocations : Prop :=
  ∀ (s : State) (off : Nat) (rest : List HostAction), off < 0x2000 → off % 8 = 0 →
    ((0x20 ≤ off ∧ off < 0x100) ∨ ctxOffset s.ctxs.length ≤ off ∨
        (∃ c, c < s.ctxs.length ∧ (off = ctxOffset c ∨ (ctxOffset c + 0x28 ≤ off ∧ off < ctxOffset c + 0x40))) →
      LoadsNext s off rest →
      step s = .next { s with pending := rest, reads := wordBytes 0 :: s.reads }) ∧
    (∀ w : Word,
      (0x20 ≤ off ∧ off < 0x100) ∨ ctxOffset s.ctxs.length ≤ off ∨
        (∃ c, c < s.ctxs.length ∧ ctxOffset c + 0x28 ≤ off ∧ off < ctxOffset c + 0x40) ∨
        off = 0x000 ∨ off = 0x010 ∨ off = 0x018 ∨
        (∃ c, c < s.ctxs.length ∧ (off = ctxOffset c + 0x18 ∨ off = ctxOffset c + 0x20)) →
      StoresNext s off w rest → step s = .next { s with pending := rest }) ∧
    (∀ w : Word, off = 0x008 → StoresNext s off w rest →
      step s = .next { s with pending := rest, forceTable := w.getLsbD 0 })

/-- R61: a load returns the register's value and changes nothing; a store to ARG0, ARG1 or CONFIG writes that register and does nothing else; a
store to CMD starts a command; no store to one context's window changes another context; no window access
changes data memory. The access leaves the queue and `reads` records a load (the model's form, log 1, log 7). -/
def Obligations.SideEffectsOfWindowAccesses : Prop :=
  (∀ (s t : State) (addr width : Nat) (rest : List HostAction),
    s.pending = .load addr width :: rest → step s = .next t →
    t = { s with
      pending := rest
      reads := wordBytes (loadReg s (windowReg s.ctxs.length (addr - s.platform.mmioBase))) :: s.reads }) ∧
  (∀ (s : State) (c : Nat) (x : Context) (w : Word) (rest : List HostAction), c < 64 → s.ctxs[c]? = some x →
    (StoresNext s (ctxOffset c + 0x08) w rest →
      step s = .next { s with pending := rest, ctxs := s.ctxs.set c { x with arg0 := w } }) ∧
    (StoresNext s (ctxOffset c + 0x10) w rest →
      step s = .next { s with pending := rest, ctxs := s.ctxs.set c { x with arg1 := w } }) ∧
    (StoresNext s 0x008 w rest → step s = .next { s with pending := rest, forceTable := w.getLsbD 0 }) ∧
    (StoresNext s (ctxOffset c) w rest → step s = storeCmd { s with pending := rest } c w)) ∧
  (∀ (s t : State) (addr : Nat) (data : List Byte) (rest : List HostAction),
    s.pending = .store addr data :: rest → step s = .next t →
    (∀ a, readByte t.dmem a = readByte s.dmem a) ∧
    ∀ c c', s.platform.mmioBase + ctxOffset c ≤ addr → addr < s.platform.mmioBase + ctxOffset c + 0x40 →
      c' ≠ c → t.ctxs[c']? = s.ctxs[c']?)

/-- R59: bit 8j + b of a register is bit b of the byte at offset +j of its slot, for every store and every load of
the window. The access leaves the queue and `reads` records a load (the model's form, log 1, log 7). -/
def Obligations.RegisterWindowIsLittleEndian : Prop :=
  ∀ (s : State) (off : Nat) (rest : List HostAction), off < 0x2000 → off % 8 = 0 →
    (∀ data : List Byte, data.length = 8 →
      s.pending = .store (s.platform.mmioBase + off) data :: rest →
      ∃ w : Word, step s = storeReg { s with pending := rest } (windowReg s.ctxs.length off) w ∧
        ∀ j b, j < 8 → b < 8 → w.getLsbD (8 * j + b) = (data.getD j 0).getLsbD b) ∧
    (LoadsNext s off rest →
      ∃ data : List Byte, step s = .next { s with pending := rest, reads := data :: s.reads } ∧ data.length = 8 ∧
        ∀ j b, j < 8 → b < 8 →
          (data.getD j 0).getLsbD b = (loadReg s (windowReg s.ctxs.length off)).getLsbD (8 * j + b))

/-- A host's data-memory store writes that one byte and nothing else; past `2^AW` there is no byte to write
(20_memory.md section 2; that it is a step and that it faults past `2^AW` is the model's choice, log 6). -/
def Obligations.HostDataStoreWritesOneByte : Prop :=
  ∀ (s : State) (a : Nat) (v : Byte) (rest : List HostAction), s.pending = .setMem a v :: rest → MemoryWf s.dmem →
    (a < 2 ^ s.platform.aw →
      ∃ m, step s = .next { s with pending := rest, dmem := m } ∧
        ∀ b, readByte m b = if b = a then v else readByte s.dmem b) ∧
    (2 ^ s.platform.aw ≤ a → step s = .fault .noSuchDataAddress)

/-! ## Reset and the capability input -/

/-- R220: what block reset leaves in every register, and that it leaves data memory alone. -/
def Obligations.BlockResetSetsEveryRegister : Prop :=
  ∀ (s : State) (rest : List HostAction), s.pending = .blockReset :: rest →
    ∃ t, step s = .next t ∧
      t.capsWord = s.capsIn.setWidth 64 ∧ t.configWord = 0 ∧ t.dispatchWord = 0 ∧ t.nctxWord = s.nctxWord ∧
      t.ctxs.length = s.ctxs.length ∧
      (∀ (c : Nat) (x : Context), t.ctxs[c]? = some x →
        x.crc = 0xFFFFFFFFFFFFFFFF#64 ∧ x.bound = false ∧ engineBits x.eng = 0 ∧ x.arg0 = 0 ∧ x.arg1 = 0 ∧
        x.result = 0 ∧ x.code = .ok ∧ x.sticky = false ∧ x.statusWord = 0) ∧
      (∀ a, readByte t.dmem a = readByte s.dmem a)

/-- Block reset takes itself from the queue and leaves the actions behind it, what hosts have read, the parameters
and the capability input as they are. This is the model's choice (log 11): the spec does not say which accesses
survive a reset (70_reset_and_hazards.md section 1). -/
def Obligations.BlockResetLeavesWhatIsOutsideTheBlock : Prop :=
  ∀ (s t : State) (rest : List HostAction), s.pending = .blockReset :: rest → step s = .next t →
    t.pending = rest ∧ t.reads = s.reads ∧ t.platform = s.platform ∧ t.capsIn = s.capsIn ∧ t.dmem = s.dmem

/-- The state after reset on any platform holds the values of 70_reset_and_hazards.md section 1, and
`State.reset` is the one with the parameters of 95_test_vectors.md section 3 (log 3). -/
def Obligations.ResetStateHoldsTheResetValues : Prop :=
  (∀ (p : Platform) (n : Nat) (v : BitVec 3),
    (State.powerOn p n v).capsWord = v.setWidth 64 ∧ (State.powerOn p n v).configWord = 0 ∧
    (State.powerOn p n v).dispatchWord = 0 ∧ (State.powerOn p n v).ctxs.length = n ∧
    ∀ c : Nat, c < n → ∃ x : Context, (State.powerOn p n v).ctxs[c]? = some x ∧
      x.crc = 0xFFFFFFFFFFFFFFFF#64 ∧ x.bound = false ∧ x.arg0 = 0 ∧ x.arg1 = 0 ∧ x.result = 0 ∧ x.statusWord = 0) ∧
  State.reset = State.powerOn { aw := 64, admitted := [{ base := 0x1000, size := 0x1000 }], mmioBase := 0 } 2 0b111#3

/-- R222: `CAPS_IN` is sampled at block reset and held; a change of the input between resets changes no other
state.The change is an action that leaves the queue (the model's form, log 1, log 11). -/
def Obligations.CapabilityInputIsSampledAtReset : Prop :=
  (∀ (s t : State), step s = .next t → NotResetting s → t.caps = s.caps) ∧
  (∀ (s : State) (rest : List HostAction), s.pending = .blockReset :: rest →
    ∃ t, step s = .next t ∧ t.caps = s.capsIn) ∧
  (∀ (s : State) (v : BitVec 3) (rest : List HostAction), s.pending = .driveCaps v :: rest →
    step s = .next { s with pending := rest, capsIn := v })

/-- The invariant holds after reset, for all parameters in R5's bounds. -/
def Obligations.InvariantHoldsAfterReset : Prop :=
  State.reset.Inv ∧
  ∀ (p : Platform) (n : Nat) (v : BitVec 3), p.wf = true → 1 ≤ n → n ≤ 64 → (State.powerOn p n v).Inv

/-- Every step keeps the invariant: canonical memory below `2^AW`, `bound = 0 ⇔ eng = 0`, a FOLD binding only
with fold capability, a latch that holds the capability decision, `INIT` in every unbound context, and STICKY
where the last command failed. -/
def Obligations.EveryStepKeepsTheInvariant : Prop :=
  ∀ s t : State, s.Inv → step s = .next t → t.Inv

/-! ## Capability dispatch -/

/-- The capability predicate and the first and later answers of `Resolve` (42_dispatch.md). -/
def Obligations.ResolveAnswersTheLatchOrTheCapability : Prop :=
  (∀ v : BitVec 3, foldOk v = true ↔ v = 0b111#3) ∧
  ∀ s : State,
    (s.dispatch = none → s.caps = 0b111#3 → resolve s = (.fold, some .fold)) ∧
    (s.dispatch = none → s.caps ≠ 0b111#3 → resolve s = (.table, some .table)) ∧
    (∀ e, s.dispatch = some e → resolve s = (e, some e)) ∧
    resolve { s with dispatch := (resolve s).2 } = resolve s

/-- R152: the latch changes at most once between block resets, from UNTESTED to the capability decision, and
only in `Resolve`: at a store of NEW without the override, or of SELECT, to CMD of a present context. Block reset
sets it to UNTESTED. -/
def Obligations.LatchIsWrittenOnce : Prop :=
  ∀ s t : State, step s = .next t →
    (NotResetting s →
      (∀ e, s.dispatch = some e → t.dispatch = some e) ∧
      (∀ e, s.dispatch = none → t.dispatch = some e →
        (e = .fold ↔ s.caps = 0b111#3) ∧
        ∃ c data rest, c < s.ctxs.length ∧ s.pending = .store (s.platform.mmioBase + ctxOffset c) data :: rest ∧
          (decodeBytes c data = .ok (.new c) ∧ s.forceTable = false ∨ decodeBytes c data = .ok (.select c)))) ∧
    (∀ rest, s.pending = .blockReset :: rest → t.dispatch = none)

/-- R154: the binding NEW makes, with its truth table from an unresolved latch; only a capable block binds FOLD. -/
def Obligations.BindingAtNew : Prop :=
  (∀ (s : State) (c : Nat) (x : Context), s.ctxs[c]? = some x →
    ∃ t y, exec (.new c) s = .next t ∧ t.ctxs[c]? = some y ∧
      (s.forceTable = true → y.eng = some .table ∧ t.dispatch = s.dispatch) ∧
      (s.forceTable = false → y.eng = some (resolve s).1 ∧ t.dispatch = some (resolve s).1) ∧
      (s.Inv → y.eng = some .fold → s.caps = 0b111#3)) ∧
  ∀ (p : Platform) (n : Nat) (v : BitVec 3) (force : Bool), 0 < n →
    ∃ t x, exec (.new 0) { State.powerOn p n v with forceTable := force } = .next t ∧ t.ctxs[0]? = some x ∧
      engineBits x.eng = (if force = false ∧ v = 0b111#3 then 1 else 2) ∧
      t.dispatchWord = (if force = true then 0 else if v = 0b111#3 then 1 else 2) ∧
      x.statusWord = (if force = false ∧ v = 0b111#3 then 0x30000 else 0x50000)

/-- R155: a store to CONFIG changes no binding, and a context keeps its binding until a NEW or a DROP stored to its
own CMD, or block reset. -/
def Obligations.BindingChangesOnlyAtNewAndDrop : Prop :=
  (∀ (s t : State) (w : Word) (rest : List HostAction), StoresNext s 0x008 w rest → step s = .next t →
    t.ctxs = s.ctxs) ∧
  ∀ (s t : State) (c : Nat) (x : Context), step s = .next t → NotResetting s → s.ctxs[c]? = some x →
    (∃ y, t.ctxs[c]? = some y ∧ y.eng = x.eng ∧ y.bound = x.bound) ∨
    ∃ data rest, s.pending = .store (s.platform.mmioBase + ctxOffset c) data :: rest ∧
      (decodeBytes c data = .ok (.new c) ∨ decodeBytes c data = .ok (.drop c))

/-! ## The commands -/

/-- R161: NEW. -/
def Obligations.NewMakesAFreshDigest : Prop :=
  ∀ (s : State) (c : Nat) (x : Context), s.ctxs[c]? = some x →
    decode c 0x0000000000000001 = .ok (.new c) ∧
    (s.forceTable = true →
      exec (.new c) s = .next { s with
        ctxs := s.ctxs.set c { x with eng := some .table, bound := true, crc := 0xFFFFFFFFFFFFFFFF#64, code := .ok } }) ∧
    (s.forceTable = false → ∀ e : Engine,
      (s.dispatch = some e ∨ s.dispatch = none ∧ (e = .fold ↔ s.caps = 0b111#3)) →
      exec (.new c) s = .next { s with
        dispatch := some e
        ctxs := s.ctxs.set c { x with eng := some e, bound := true, crc := 0xFFFFFFFFFFFFFFFF#64, code := .ok } })

/-- R162: RESET. -/
def Obligations.ResetReloadsInit : Prop :=
  ∀ (s : State) (c : Nat) (x : Context), s.ctxs[c]? = some x →
    decode c 0x0000000000000002 = .ok (.reset c) ∧
    (x.bound = true →
      exec (.reset c) s = .next { s with
        ctxs := s.ctxs.set c { x with crc := 0xFFFFFFFFFFFFFFFF#64, code := .ok } }) ∧
    (x.bound = false →
      exec (.reset c) s = .next { s with ctxs := s.ctxs.set c { x with code := .unbound, sticky := true } })

/-- R163: the buffer the WRITE commands fetch; `arg0` and `arg1` keep their values. -/
def Obligations.BufferOperandOfTheWrites : Prop :=
  ∀ (s : State) (x : Context),
    (x.arg1 = 0 → writeBuffer s x = .ok []) ∧
    (x.arg1 ≠ 0 → 2 ^ s.platform.aw < x.arg0.toNat + x.arg1.toNat → writeBuffer s x = .error .accessFault) ∧
    (∀ k, k < x.arg1.toNat → admits s.platform (x.arg0.toNat + k) = false → writeBuffer s x = .error .accessFault) ∧
    (x.arg0.toNat + x.arg1.toNat ≤ 2 ^ s.platform.aw →
      (∀ k, k < x.arg1.toNat → admits s.platform (x.arg0.toNat + k) = true) →
      writeBuffer s x = .ok ((List.range x.arg1.toNat).map fun k => readByte s.dmem (x.arg0.toNat + k))) ∧
    (∀ (c : Nat) (i : Instr), i = .write c ∨ i = .writeT c ∨ i = .writeF c → s.ctxs[c]? = some x →
      ∃ t y, exec i s = .next t ∧ t.ctxs[c]? = some y ∧ y.arg0 = x.arg0 ∧ y.arg1 = x.arg1)

/-- R164: WRITE. -/
def Obligations.WriteExtendsThroughTheBoundEngine : Prop :=
  ∀ (s : State) (c : Nat) (x : Context), s.ctxs[c]? = some x →
    decode c 0x0000000000000003 = .ok (.write c) ∧
    (x.bound = true → BufferReadable s x → x.eng = some .fold →
      exec (.write c) s = .next { s with
        ctxs := s.ctxs.set c { x with crc := foldUpdate x.crc (bufferBytes s x), code := .ok } }) ∧
    (x.bound = true → BufferReadable s x → x.eng ≠ some .fold →
      exec (.write c) s = .next { s with
        ctxs := s.ctxs.set c { x with crc := tableUpdate x.crc (bufferBytes s x), code := .ok } }) ∧
    (x.bound = false →
      exec (.write c) s = .next { s with ctxs := s.ctxs.set c { x with code := .unbound, sticky := true } }) ∧
    (x.bound = true → ¬ BufferReadable s x →
      exec (.write c) s = .next { s with ctxs := s.ctxs.set c { x with code := .accessFault, sticky := true } })

/-- R165: WRITE.T. -/
def Obligations.WriteTExtendsThroughTheTableEngine : Prop :=
  ∀ (s : State) (c : Nat) (x : Context), s.ctxs[c]? = some x →
    decode c 0x0000000000000103 = .ok (.writeT c) ∧
    (x.bound = true → BufferReadable s x →
      exec (.writeT c) s = .next { s with
        ctxs := s.ctxs.set c { x with crc := tableUpdate x.crc (bufferBytes s x), code := .ok } }) ∧
    (x.bound = false →
      exec (.writeT c) s = .next { s with ctxs := s.ctxs.set c { x with code := .unbound, sticky := true } }) ∧
    (x.bound = true → ¬ BufferReadable s x →
      exec (.writeT c) s = .next { s with ctxs := s.ctxs.set c { x with code := .accessFault, sticky := true } })

/-- R166: WRITE.F. -/
def Obligations.WriteFExtendsThroughTheFoldEngine : Prop :=
  ∀ (s : State) (c : Nat) (x : Context), s.ctxs[c]? = some x →
    decode c 0x0000000000000203 = .ok (.writeF c) ∧
    (x.bound = true → s.caps = 0b111#3 → BufferReadable s x →
      exec (.writeF c) s = .next { s with
        ctxs := s.ctxs.set c { x with crc := foldUpdate x.crc (bufferBytes s x), code := .ok } }) ∧
    (x.bound = false →
      exec (.writeF c) s = .next { s with ctxs := s.ctxs.set c { x with code := .unbound, sticky := true } }) ∧
    (x.bound = true → s.caps ≠ 0b111#3 →
      exec (.writeF c) s = .next { s with
        ctxs := s.ctxs.set c { x with code := .foldUnavailable, sticky := true } }) ∧
    (x.bound = true → s.caps = 0b111#3 → ¬ BufferReadable s x →
      exec (.writeF c) s = .next { s with ctxs := s.ctxs.set c { x with code := .accessFault, sticky := true } })

/-- R167: SUM. -/
def Obligations.SumReturnsTheChecksum : Prop :=
  ∀ (s : State) (c : Nat) (x : Context), s.ctxs[c]? = some x →
    decode c 0x0000000000000004 = .ok (.sum c) ∧
    (x.bound = true →
      exec (.sum c) s = .next { s with
        ctxs := s.ctxs.set c { x with result := x.crc ^^^ 0xFFFFFFFFFFFFFFFF#64, code := .ok } }) ∧
    (x.bound = false →
      exec (.sum c) s = .next { s with ctxs := s.ctxs.set c { x with code := .unbound, sticky := true } })

/-- R168: SELECT. -/
def Obligations.SelectReportsTheDecision : Prop :=
  ∀ (s : State) (c : Nat) (x : Context) (e : Engine), s.ctxs[c]? = some x →
    (s.dispatch = some e ∨ s.dispatch = none ∧ (e = .fold ↔ s.caps = 0b111#3)) →
    decode c 0x0000000000000005 = .ok (.select c) ∧
    exec (.select c) s = .next { s with
      dispatch := some e
      ctxs := s.ctxs.set c { x with result := (if e = .fold then 1 else 2), code := .ok } }

/-- R169: DROP. -/
def Obligations.DropEndsTheDigest : Prop :=
  ∀ (s : State) (c : Nat) (x : Context), s.ctxs[c]? = some x →
    decode c 0x0000000000000006 = .ok (.drop c) ∧
    (x.bound = true →
      exec (.drop c) s = .next { s with
        ctxs := s.ctxs.set c { x with bound := false, eng := none, crc := 0xFFFFFFFFFFFFFFFF#64, code := .ok } }) ∧
    (x.bound = false →
      exec (.drop c) s = .next { s with ctxs := s.ctxs.set c { x with code := .unbound, sticky := true } })

/-- R54: a WRITE of length 0 reads and checks nothing, whatever `arg0` is; it leaves the register and completes
where the command's other checks pass. -/
def Obligations.ZeroLengthWriteIsANoOp : Prop :=
  ∀ (s : State) (c : Nat) (x : Context), s.ctxs[c]? = some x → x.bound = true → x.arg1 = 0 →
    exec (.write c) s = .next { s with ctxs := s.ctxs.set c { x with code := .ok } } ∧
    exec (.writeT c) s = .next { s with ctxs := s.ctxs.set c { x with code := .ok } } ∧
    (s.caps = 0b111#3 → exec (.writeF c) s = .next { s with ctxs := s.ctxs.set c { x with code := .ok } })

/-! ## Errors -/

/-- R202: one code, the first that applies, in the order ILLEGAL_COMMAND, UNBOUND, FOLD_UNAVAILABLE, ACCESS_FAULT. -/
def Obligations.ErrorPriority : Prop :=
  ∀ (s : State) (c : Nat) (x : Context), s.ctxs[c]? = some x →
    (∀ w e, decode c w = .error e →
      ∃ t y, storeCmd s c w = .next t ∧ t.ctxs[c]? = some y ∧ y.code = .illegalCommand) ∧
    (∀ i, i = .reset c ∨ i = .write c ∨ i = .writeT c ∨ i = .writeF c ∨ i = .sum c ∨ i = .drop c →
      x.bound = false → ∃ t y, exec i s = .next t ∧ t.ctxs[c]? = some y ∧ y.code = .unbound) ∧
    (x.bound = true → s.caps ≠ 0b111#3 →
      ∃ t y, exec (.writeF c) s = .next t ∧ t.ctxs[c]? = some y ∧ y.code = .foldUnavailable) ∧
    (∀ i, i = .write c ∨ i = .writeT c ∨ i = .writeF c ∧ s.caps = 0b111#3 →
      x.bound = true → ¬ BufferReadable s x →
      ∃ t y, exec i s = .next t ∧ t.ctxs[c]? = some y ∧ y.code = .accessFault)

/-- R200: the values of the codes, and which code each command can leave. -/
def Obligations.CodesEachCommandRaises : Prop :=
  (ErrorCode.ok.bits = 0 ∧ ErrorCode.illegalCommand.bits = 1 ∧ ErrorCode.unbound.bits = 2 ∧
    ErrorCode.foldUnavailable.bits = 3 ∧ ErrorCode.accessFault.bits = 4 ∧ ∀ e : ErrorCode, e.bits ≤ 4) ∧
  (∀ (s : State) (c : Nat) (w : Word) (x : Context) (e : DecodeError), s.ctxs[c]? = some x → decode c w = .error e →
    ∃ t y, storeCmd s c w = .next t ∧ t.ctxs[c]? = some y ∧ y.code = .illegalCommand) ∧
  ∀ (i : Instr) (s : State) (x : Context), s.ctxs[i.ctx]? = some x →
    ∃ t y, exec i s = .next t ∧ t.ctxs[i.ctx]? = some y ∧ y.code ≠ .illegalCommand ∧
      (y.code = .unbound ↔ x.bound = false ∧ i ≠ .new i.ctx ∧ i ≠ .select i.ctx) ∧
      (y.code = .foldUnavailable ↔ i = .writeF i.ctx ∧ x.bound = true ∧ s.caps ≠ 0b111#3) ∧
      (y.code = .accessFault ↔ x.bound = true ∧ ¬ BufferReadable s x ∧
        (i = .write i.ctx ∨ i = .writeT i.ctx ∨ i = .writeF i.ctx ∧ s.caps = 0b111#3))

/-- R203: a failed command, an illegal word among them, writes CODE and STICKY of its context and nothing else. -/
def Obligations.FailedCommandChangesOnlyStatus : Prop :=
  (∀ (i : Instr) (s t : State) (x y : Context),
    exec i s = .next t → s.ctxs[i.ctx]? = some x → t.ctxs[i.ctx]? = some y → y.code ≠ .ok →
    t = { s with ctxs := s.ctxs.set i.ctx { x with code := y.code, sticky := true } }) ∧
  ∀ (s t : State) (c : Nat) (w : Word) (x y : Context),
    storeCmd s c w = .next t → s.ctxs[c]? = some x → t.ctxs[c]? = some y → y.code ≠ .ok →
    t = { s with ctxs := s.ctxs.set c { x with code := y.code, sticky := true } }

/-- R204: every command ends by writing CODE, the code of its error where it fails (R202) and OK where it completes,
whatever CODE was before, and sets STICKY exactly when it failed; no step but block reset
clears STICKY, and block reset does; a store to STATUS is ignored, and BOUND and ENG of STATUS are views of `bound`
and `eng`. -/
def Obligations.EveryCommandReportsAndStickyStays : Prop :=
  (∀ (i : Instr) (s : State) (x : Context), s.ctxs[i.ctx]? = some x →
    ∃ t y, exec i s = .next t ∧ t.ctxs[i.ctx]? = some y ∧
      y.sticky = (x.sticky || decide (y.code ≠ .ok)) ∧
      (x.bound = false → i ≠ .new i.ctx → i ≠ .select i.ctx → y.code = .unbound) ∧
      (x.bound = true → i = .writeF i.ctx → s.caps ≠ 0b111#3 → y.code = .foldUnavailable) ∧
      (x.bound = true → i = .write i.ctx ∨ i = .writeT i.ctx ∨ i = .writeF i.ctx ∧ s.caps = 0b111#3 →
        ¬ BufferReadable s x → y.code = .accessFault) ∧
      (i = .new i.ctx ∨ i = .select i.ctx ∨
        x.bound = true ∧ (i = .reset i.ctx ∨ i = .sum i.ctx ∨ i = .drop i.ctx ∨
          (i = .write i.ctx ∨ i = .writeT i.ctx ∨ i = .writeF i.ctx ∧ s.caps = 0b111#3) ∧ BufferReadable s x) →
        y.code = .ok)) ∧
  (∀ (s : State) (c : Nat) (w : Word) (x : Context) (e : DecodeError), s.ctxs[c]? = some x → decode c w = .error e →
    ∃ t y, storeCmd s c w = .next t ∧ t.ctxs[c]? = some y ∧ y.code = .illegalCommand ∧ y.sticky = true) ∧
  (∀ (s t : State) (c : Nat) (x : Context), step s = .next t → NotResetting s → s.ctxs[c]? = some x →
    x.sticky = true → ∃ y, t.ctxs[c]? = some y ∧ y.sticky = true) ∧
  (∀ (s : State) (rest : List HostAction), s.pending = .blockReset :: rest →
    ∃ t, step s = .next t ∧ ∀ y ∈ t.ctxs, y.sticky = false) ∧
  (∀ (s : State) (c : Nat) (w : Word) (rest : List HostAction), c < 64 → StoresNext s (ctxOffset c + 0x20) w rest →
    step s = .next { s with pending := rest }) ∧
  ∀ x : Context, x.statusWord.getLsbD 16 = x.bound ∧ x.statusWord.extractLsb' 17 2 = engineBits x.eng

/-- Every command on every state completes with a next state: no error of a command stops the block
(60_exceptions.md section 4). -/
def Obligations.EveryCommandGivesANextState : Prop :=
  ∀ (i : Instr) (s : State), ∃ t, exec i s = .next t

/-! ## Frames and independence -/

/-- R171: a command writes its own context and may write an unresolved latch (NEW without the override, SELECT);
it reads its own context, CONFIG, CAPS, the latch, the platform and data memory, and nothing else. -/
def Obligations.CommandTouchesOnlyItsContext : Prop :=
  (∀ (i : Instr) (s t : State), exec i s = .next t →
    SameOutside i.ctx s t ∧
    (t.dispatch = s.dispatch ∨
      s.dispatch = none ∧ (i = .new i.ctx ∧ s.forceTable = false ∨ i = .select i.ctx))) ∧
  ∀ (i : Instr) (s₁ s₂ t₁ t₂ : State), exec i s₁ = .next t₁ → exec i s₂ = .next t₂ →
    s₁.ctxs[i.ctx]? = s₂.ctxs[i.ctx]? → s₁.forceTable = s₂.forceTable → s₁.caps = s₂.caps →
    s₁.dispatch = s₂.dispatch → s₁.platform = s₂.platform →
    (∀ a, readByte s₁.dmem a = readByte s₂.dmem a) →
    t₁.ctxs[i.ctx]? = t₂.ctxs[i.ctx]? ∧ t₁.dispatch = t₂.dispatch

/-- The frame of each command on the registers of its context: `arg0` and `arg1` never change, `result` only in a
successful SUM or SELECT, `crc` only in NEW, RESET, DROP and the WRITEs, `bound` and `eng` only in NEW and DROP
(10_state.md section 3). -/
def Obligations.RegistersEachCommandKeeps : Prop :=
  ∀ (i : Instr) (s t : State) (x : Context), exec i s = .next t → s.ctxs[i.ctx]? = some x →
    ∃ y, t.ctxs[i.ctx]? = some y ∧ y.arg0 = x.arg0 ∧ y.arg1 = x.arg1 ∧
      (y.result = x.result ∨ y.code = .ok ∧ (i = .sum i.ctx ∨ i = .select i.ctx)) ∧
      (y.crc = x.crc ∨ i = .new i.ctx ∨ i = .reset i.ctx ∨ i = .drop i.ctx ∨
        i = .write i.ctx ∨ i = .writeT i.ctx ∨ i = .writeF i.ctx) ∧
      (y.bound = x.bound ∧ y.eng = x.eng ∨ i = .new i.ctx ∨ i = .drop i.ctx)

/-- The block never writes data memory, and only the WRITE commands read it (20_memory.md section 2). -/
def Obligations.OnlyWritesReadDataMemory : Prop :=
  (∀ (i : Instr) (s t : State), exec i s = .next t → ∀ a, readByte t.dmem a = readByte s.dmem a) ∧
  (∀ s t : State, step s = .next t → (∀ a v rest, s.pending ≠ .setMem a v :: rest) →
    ∀ a, readByte t.dmem a = readByte s.dmem a) ∧
  ∀ (i : Instr) (s t : State) (m : List Host.Cell),
    i ≠ .write i.ctx → i ≠ .writeT i.ctx → i ≠ .writeF i.ctx → exec i s = .next t →
    exec i { s with dmem := m } = .next { t with dmem := m }

/-! ## The Table Engine -/

/-- R103: every table is linear in its byte index, and its basis entries are those of the spec's table. -/
def Obligations.TableStoreIsLinearOverItsBasis : Prop :=
  (∀ (k : Nat) (a b : Byte), tbl k (a ^^^ b) = tbl k a ^^^ tbl k b) ∧
  (∀ k : Nat, tbl k 0 = 0) ∧
  (∀ k i : Nat, k < 16 → i < 8 → tbl k (1#8 <<< i) = (romBasis.getD k []).getD i 0) ∧
  ∀ (k : Nat) (b : Byte), k < 16 →
    tbl k b = (List.range 8).foldl (fun acc i => acc ^^^ (if b.getLsbD i then (romBasis.getD k []).getD i 0 else 0)) 0

/-- The slice step is sixteen byte steps (40_table_engine.md section 2). -/
def Obligations.SliceStepIsSixteenByteSteps : Prop :=
  ∀ (r : Word) (q : List Byte), q.length = 16 → slice16 r q = byteSerial r q

/-- The Table Engine is the byte-serial CRC (40_table_engine.md section 2). -/
def Obligations.TableUpdateIsByteSerial : Prop :=
  ∀ (r : Word) (d : List Byte), tableUpdate r d = byteSerial r d

/-- R109: the chunking invariant. -/
def Obligations.ChunkingInvariant : Prop :=
  ∀ (r : Word) (a b : List Byte), tableUpdate (tableUpdate r a) b = tableUpdate r (a ++ b)

/-- R9: the register after consuming `d` from `r` is the unique `r'` whose polynomial is
`(poly64(r)·x^(8n) + msg(d)·x^64) mod P`. -/
def Obligations.ByteSerialIsThePolynomialRemainder : Prop :=
  ∀ (r r' : Word) (d : List Byte) (pr pr' pd pg : (ZMod 2)[X]),
    ReadsWord r pr → ReadsWord r' pr' → ReadsMessage d pd → ReadsGenerator pg →
    (pr' = (pr * X ^ (8 * d.length) + pd * X ^ 64) %ₘ pg ↔ r' = byteSerial r d)

/-! ## The Fold Engine -/

/-- The carry-less product is the polynomial product times x, commutes, and distributes over XOR
(41_fold_engine.md section 1). -/
def Obligations.CarrylessProductIsPolynomialProduct : Prop :=
  (∀ (a b : Word) (pa pb pc : (ZMod 2)[X]),
    ReadsWord a pa → ReadsWord b pb → ReadsBlock (clmul a b) pc → pc = X * pa * pb) ∧
  (∀ a b : Word, clmul a b = clmul b a ∧ (clmul a b).getLsbD 127 = false) ∧
  ∀ a b c : Word, clmul (a ^^^ b) c = clmul a c ^^^ clmul b c

/-- The constants are the values of their formulas (41_fold_engine.md section 1): `K(n) = rev64(x^n mod P)`,
`MU = rev64(floor(x^128/P) - x^64)`, `POLY_R = rev64(P - x^64)`. -/
def Obligations.FoldConstantsAreTheirFormulas : Prop :=
  (∀ n ∈ foldExponents, IsReverse (foldK n) (xPowMod n)) ∧
  (2 ^ 64 ≤ xPowDiv 128 ∧ xPowDiv 128 < 2 ^ 65 ∧ IsReverse muConst (BitVec.ofNat 64 (xPowDiv 128 - 2 ^ 64))) ∧
  IsReverse polyR polyN

/-- A fold by D bytes multiplies by x^(8D) modulo P, for every distance the pipeline uses, and leaves bit 127 at 0
(41_fold_engine.md section 1). -/
def Obligations.FoldAdvancesByItsDistance : Prop :=
  ∀ D ∈ foldDistances, ∀ (x : Block) (px pf pg : (ZMod 2)[X]),
    ReadsBlock x px → ReadsBlock (foldBy D x) pf → ReadsGenerator pg →
    pf %ₘ pg = (px * X ^ (8 * D)) %ₘ pg ∧ (foldBy D x).getLsbD 127 = false

/-- The fold-down multiplies by x^64 modulo P, and the Barrett reduction is the remainder modulo P
(41_fold_engine.md section 1). -/
def Obligations.BarrettReducesTheFoldDown : Prop :=
  ∀ (a : Block) (pa pf pb pg : (ZMod 2)[X]),
    ReadsBlock a pa → ReadsBlock (fold64 a) pf → ReadsWord (barrett a) pb → ReadsGenerator pg →
    pf %ₘ pg = (pa * X ^ 64) %ₘ pg ∧ pb = pa %ₘ pg

/-- R132: below 16 bytes the Fold Engine is the Table Engine, and zero length returns the register. -/
def Obligations.ShortFoldIsTableUpdate : Prop :=
  ∀ (r : Word) (d : List Byte), d.length < 16 →
    foldUpdate r d = tableUpdate r d ∧ (d.length = 0 → foldUpdate r d = r)

/-- R133: the Fold Engine, the Table Engine and the byte-serial CRC are one function, whose polynomial is
`(poly64(r)·x^(8n) + msg(d)·x^64) mod P`. -/
def Obligations.FoldUpdateEqualsTableUpdate : Prop :=
  ∀ (r : Word) (d : List Byte),
    foldUpdate r d = tableUpdate r d ∧ tableUpdate r d = byteSerial r d ∧
    ∀ pr pr' pd pg : (ZMod 2)[X],
      ReadsWord r pr → ReadsWord (foldUpdate r d) pr' → ReadsMessage d pd → ReadsGenerator pg →
      pr' = (pr * X ^ (8 * d.length) + pd * X ^ 64) %ₘ pg

/-! ## Digests -/

/-- From one register and one readable buffer the three WRITE commands leave the same state, whose register is
the byte-serial CRC (42_dispatch.md, 43_digest_commands.md). -/
def Obligations.TheThreeWritesAgree : Prop :=
  ∀ (s : State) (c : Nat) (x : Context), s.ctxs[c]? = some x → x.bound = true → s.caps = 0b111#3 →
    BufferReadable s x →
    exec (.writeF c) s = exec (.writeT c) s ∧ exec (.write c) s = exec (.writeT c) s ∧
    exec (.writeT c) s = .next { s with
      ctxs := s.ctxs.set c { x with crc := byteSerial x.crc (bufferBytes s x), code := .ok } }

/-- WRITE over a buffer leaves the register that WRITE over its first `k` bytes and then WRITE over its other `n`
bytes leave, for every split and either binding (43_digest_commands.md, property 1). -/
def Obligations.SplitWritesEqualOneWrite : Prop :=
  ∀ (s : State) (c k n : Nat) (x : Context), s.platform.wf = true → s.ctxs[c]? = some x → x.bound = true →
    BufferReadable s x → x.arg1.toNat = k + n →
    ∃ t₁ y₁ t₂ y₂ t y,
      exec (.write c) (s.setCtx c { x with arg1 := BitVec.ofNat 64 k }) = .next t₁ ∧ t₁.ctxs[c]? = some y₁ ∧
      exec (.write c) (t₁.setCtx c
        { y₁ with arg0 := BitVec.ofNat 64 (x.arg0.toNat + k), arg1 := BitVec.ofNat 64 n }) = .next t₂ ∧
      t₂.ctxs[c]? = some y₂ ∧
      exec (.write c) s = .next t ∧ t.ctxs[c]? = some y ∧
      y₁.code = .ok ∧ y₂.code = .ok ∧ y.code = .ok ∧ y₂.crc = y.crc

/-- SUM right after NEW gives 0; WRITE, RESET, WRITE, SUM gives the RESULT that NEW, WRITE, SUM gives
(43_digest_commands.md, properties 2 and 3). -/
def Obligations.FreshAndResetDigestsSumAlike : Prop :=
  (∀ (s : State) (c : Nat) (x : Context), s.ctxs[c]? = some x →
    ∃ t y, execList [.new c, .sum c] s = .next t ∧ t.ctxs[c]? = some y ∧ y.code = .ok ∧ y.result = 0) ∧
  ∀ (s : State) (c : Nat) (x : Context), s.ctxs[c]? = some x → x.bound = true → BufferReadable s x →
    ∃ t₁ y₁ t₂ y₂,
      execList [.write c, .reset c, .write c, .sum c] s = .next t₁ ∧ t₁.ctxs[c]? = some y₁ ∧
      execList [.new c, .write c, .sum c] s = .next t₂ ∧ t₂.ctxs[c]? = some y₂ ∧
      y₁.code = .ok ∧ y₂.code = .ok ∧ y₁.result = y₂.result
end

