-- ==== Sys2Proof/Laws/Decode.lean ====
section
/-! SUPPORT. The laws of the byte order, of the window map and of the decoder. -/

namespace Sys2Proof

/-- The bytes of a register, read back little-endian, are the register (R59). -/
@[simp] theorem le64_wordBytes (v : Word) : le64 (wordBytes v) 0 = v := by
  apply BitVec.eq_of_getLsbD_eq
  intro i hi
  simp only [le64, wordBytes, leBits, byteOf, List.drop_zero, List.take_succ_cons, List.take_nil]
  simp only [BitVec.getLsbD_or, BitVec.getLsbD_setWidth, BitVec.getLsbD_shiftLeft, BitVec.getLsbD_ushiftRight,
    BitVec.getLsbD_zero]
  interval_cases i <;> simp

@[simp] theorem wordBytes_length (v : Word) : (wordBytes v).length = 8 := rfl

/-- The map inside context `c`'s window (R57). -/
theorem windowReg_ctx {n c : Nat} (h : c < n) {r : Nat} (hr : r < 0x40) :
    windowReg n (ctxOffset c + r) =
      if r = 0x00 then .cmd c else if r = 0x08 then .arg0 c else if r = 0x10 then .arg1 c
      else if r = 0x18 then .result c else if r = 0x20 then .status c else .reserved := by
  have hc : (ctxOffset c + r - 0x100) / 0x40 = c := by simp only [ctxOffset]; omega
  have hm : (ctxOffset c + r - 0x100) % 0x40 = r := by simp only [ctxOffset]; omega
  have hge : 0x100 ≤ ctxOffset c + r := by simp only [ctxOffset]; omega
  simp only [windowReg, hc, hm]
  rw [if_neg (by omega), if_neg (by omega), if_neg (by omega), if_neg (by omega), if_neg (by omega), if_neg (by omega)]

/-- CMD of context `c` stands at `ctxOffset c` (R57). -/
theorem windowReg_cmd {n c : Nat} (h : c < n) : windowReg n (ctxOffset c) = .cmd c := by
  simpa using windowReg_ctx h (r := 0) (by decide)

/-- Offsets past the last context's window are reserved (R57). -/
theorem windowReg_past {n off : Nat} (h : ctxOffset n ≤ off) : windowReg n off = .reserved := by
  have hc : n ≤ (off - 0x100) / 0x40 := by simp only [ctxOffset] at h; omega
  have hge : 0x100 ≤ off := by simp only [ctxOffset] at h; omega
  simp only [windowReg, hc, if_true]
  rw [if_neg (by omega), if_neg (by omega), if_neg (by omega), if_neg (by omega), if_neg (by omega)]

/-- A decoded command stands in the context whose CMD was stored to (R70). -/
theorem decode_ctx {c : Nat} {w : Word} {i : Instr} (h : decode c w = .ok i) : i.ctx = c := by
  unfold decode at h
  repeat' split at h
  all_goals first
    | cases h
      done
    | (cases h; rfl)

end Sys2Proof
end

