-- ==== Sys2Proof/Laws/Engines.lean ====
section
/-! SUPPORT. The algebra the two engines rest on: bit steps of the register, the residue of a block, and the
carry-less product as bit steps of the residue. -/

namespace Sys2Proof.Machine

/-- One bit step as a shift and a conditional XOR. -/
theorem crcBit_eq (r : Word) : crcBit r = (r >>> 1) ^^^ (if r.getLsbD 0 then polyR else 0) := by
  unfold crcBit; split <;> simp

/-- A bit step is linear. -/
theorem crcBit_xor (a b : Word) : crcBit (a ^^^ b) = crcBit a ^^^ crcBit b := by
  simp only [crcBit_eq, BitVec.getLsbD_xor, BitVec.ushiftRight_xor_distrib]
  have hx : ∀ p q u : Word, p ^^^ q = p ^^^ u ^^^ (q ^^^ u) := fun p q u => by
    rw [BitVec.xor_comm q u, BitVec.xor_assoc, ← BitVec.xor_assoc u u, BitVec.xor_self, BitVec.zero_xor]
  cases a.getLsbD 0 <;> cases b.getLsbD 0
  · simp
  · simp; ac_rfl
  · simp; ac_rfl
  · simpa using hx _ _ polyR

/-- Bit steps are linear. -/
theorem crcBits_xor (n : Nat) (a b : Word) : crcBits n (a ^^^ b) = crcBits n a ^^^ crcBits n b := by
  induction n generalizing a b with
  | zero => rfl
  | succ n ih => simp only [crcBits, crcBit_xor, ih]

/-- Bit steps keep 0. -/
theorem crcBits_zero (n : Nat) : crcBits n 0 = 0 := by
  have := crcBits_xor n 0 0
  simpa using this

/-- Bit steps compose. -/
theorem crcBits_add (m n : Nat) (r : Word) : crcBits (m + n) r = crcBits m (crcBits n r) := by
  induction n generalizing r with
  | zero => rfl
  | succ n ih => rw [← Nat.add_assoc, crcBits, ih, crcBits]

/-- Bit steps over zero bits only shift. -/
theorem crcBits_of_low_zero {n : Nat} {v : Word} (h : ∀ i, i < n → v.getLsbD i = false) :
    crcBits n v = v >>> n := by
  induction n generalizing v with
  | zero => simp [crcBits]
  | succ n ih =>
    have h0 : crcBit v = v >>> 1 := by unfold crcBit; rw [if_neg (by rw [h 0 (by omega)]; simp)]
    rw [crcBits, h0, ih (fun i hi => by simpa [Nat.add_comm] using h (i + 1) (by omega)),
      ← BitVec.shiftRight_add, Nat.add_comm 1 n]

/-- Bit steps undo a shift that loses no bit. -/
theorem crcBits_shiftLeft {n : Nat} (m : Nat) (v : Word) (h : v <<< n >>> n = v) :
    crcBits (m + n) (v <<< n) = crcBits m v := by
  rw [crcBits_add, crcBits_of_low_zero (n := n), h]
  intro i hi; simp [hi]

/-- A byte step is eight bit steps (40_table_engine.md R102). -/
theorem tableStep_eq (r : Word) (x : Byte) : tableStep r x = crcBits 8 (r ^^^ x.setWidth 64) := by
  have hsplit : r ^^^ x.setWidth 64 = (byteOf r 0 ^^^ x).setWidth 64 ^^^ (r >>> 8) <<< 8 := by
    apply BitVec.eq_of_getLsbD_eq
    intro i hi
    by_cases h8 : i < 8
    · simp [byteOf, h8, hi]
    · simp [byteOf, h8, hi, show 8 + (i - 8) = i by omega, BitVec.getLsbD_of_ge x i (by omega)]
  rw [hsplit, crcBits_xor, crcBits_of_low_zero (n := 8) (v := (r >>> 8) <<< 8)]
  · simp only [tableStep, tbl, tbl0]
    congr 1
    apply BitVec.eq_of_getLsbD_eq
    intro i hi
    by_cases h : 8 + i < 64
    · simp [h]
    · simp [BitVec.getLsbD_of_ge r (8 + i) (by omega)]
  · intro i hi; simp [hi]

/-- The next table is eight more bit steps (R102). -/
theorem nextEntry_eq (t : Word) : nextEntry t = crcBits 8 t := by
  have := tableStep_eq t 0
  simpa [tableStep, nextEntry, tbl, BitVec.xor_comm] using this

/-- Table `k` is `8 (k + 1)` bit steps of its index (R102). -/
theorem tbl_eq (k : Nat) (b : Byte) : tbl k b = crcBits (8 * (k + 1)) (b.setWidth 64) := by
  induction k with
  | zero => rfl
  | succ k ih => rw [tbl, nextEntry_eq, ih, ← crcBits_add]; congr 1; omega

/-- No byte leaves the register. -/
theorem byteSerial_nil (r : Word) : byteSerial r [] = r := rfl

/-- The first byte is eight bit steps. -/
theorem byteSerial_cons (r : Word) (b : Byte) (d : List Byte) :
    byteSerial r (b :: d) = byteSerial (crcBits 8 (r ^^^ b.setWidth 64)) d := by
  rw [byteSerial, List.foldl_cons, tableStep_eq]; rfl

/-- The bytes of two strings, one after the other. -/
theorem byteSerial_append (r : Word) (a b : List Byte) : byteSerial r (a ++ b) = byteSerial (byteSerial r a) b := by
  simp [byteSerial]

/-- A byte in its place of a word, after the bit steps below it. -/
theorem setWidth_byteOf_shift (v : Word) (j : Nat) (hj : j < 8) (m : Nat) :
   crcBits (m + 8*j) ((byteOf v j).setWidth 64 <<< (8*j)) = crcBits m ((byteOf v j).setWidth 64) := by
  apply crcBits_shiftLeft
  apply BitVec.eq_of_getLsbD_eq
  intro i hi
  by_cases h : i < 8
  · have : 8*j + i < 64 := by omega
    simp [this, hi]
  · simp [BitVec.getLsbD_of_ge (byteOf v j) i (by omega)]

/-- A word is its eight bytes (00_scope.md R7). -/
theorem word_eq_bytes (v : Word) : v = (byteOf v 0).setWidth 64 ^^^ (byteOf v 1).setWidth 64 <<< 8
    ^^^ (byteOf v 2).setWidth 64 <<< 16
   ^^^ (byteOf v 3).setWidth 64 <<< 24 ^^^ (byteOf v 4).setWidth 64 <<< 32 ^^^ (byteOf v 5).setWidth 64 <<< 40
   ^^^ (byteOf v 6).setWidth 64 <<< 48 ^^^ (byteOf v 7).setWidth 64 <<< 56 := by
  apply BitVec.eq_of_getLsbD_eq
  intro i hi
  simp only [byteOf, BitVec.getLsbD_xor, BitVec.getLsbD_setWidth, BitVec.getLsbD_shiftLeft,
      BitVec.getLsbD_ushiftRight]
  interval_cases i <;> simp

/-- Bit steps of a word, byte by byte. -/
theorem crcBits_bytes (m : Nat) (v : Word) : crcBits (m + 56) v =
   crcBits (m+56) ((byteOf v 0).setWidth 64) ^^^ crcBits (m+48) ((byteOf v 1).setWidth 64)
       ^^^ crcBits (m+40) ((byteOf v 2).setWidth 64)
   ^^^ crcBits (m+32) ((byteOf v 3).setWidth 64) ^^^ crcBits (m+24) ((byteOf v 4).setWidth 64)
   ^^^ crcBits (m+16) ((byteOf v 5).setWidth 64)
   ^^^ crcBits (m+8) ((byteOf v 6).setWidth 64) ^^^ crcBits m ((byteOf v 7).setWidth 64) := by
  conv_lhs => rw [word_eq_bytes v]
  simp only [crcBits_xor]
  rw [← setWidth_byteOf_shift v 1 (by decide) (m+48), ← setWidth_byteOf_shift v 2 (by decide) (m+40),
      ← setWidth_byteOf_shift v 3 (by decide) (m+32),
   ← setWidth_byteOf_shift v 4 (by decide) (m+24), ← setWidth_byteOf_shift v 5 (by decide) (m+16),
       ← setWidth_byteOf_shift v 6 (by decide) (m+8),
   ← setWidth_byteOf_shift v 7 (by decide) m]

/-- `LE64` of eight bytes that stand in the list. -/
theorem le64_eight (a b c d e f g h : Byte) (t : List Byte) (i : Nat) (l) (hl :
    l.drop i = a :: b :: c :: d :: e :: f :: g :: h :: t) : le64 l i =
   a.setWidth 64 ^^^ b.setWidth 64 <<< 8 ^^^ c.setWidth 64 <<< 16 ^^^ d.setWidth 64 <<< 24
       ^^^ e.setWidth 64 <<< 32 ^^^ f.setWidth 64 <<< 40
   ^^^ g.setWidth 64 <<< 48 ^^^ h.setWidth 64 <<< 56 := by
  unfold le64
  rw [hl]
  apply BitVec.eq_of_getLsbD_eq
  intro i hi
  simp only [List.take_succ_cons, List.take_zero, leBits, BitVec.getLsbD_or, BitVec.getLsbD_xor,
      BitVec.getLsbD_setWidth, BitVec.getLsbD_shiftLeft, BitVec.getLsbD_zero]
  interval_cases i <;> simp

/-- The bytes of `LE64` (R7). -/
theorem byteOf_le64 (l : List Byte) (i j : Nat) (hj : j < 8) (hl : i + 8 ≤ l.length) :
    byteOf (le64 l i) j = l.getD (i + j) 0 := by
  obtain ⟨a, b, c, d, e, f, g, h, t, ht⟩ : ∃ a b c d e f g h t,
      l.drop i = a :: b :: c :: d :: e :: f :: g :: h :: t := by
    have hl' : 8 ≤ (l.drop i).length := by simp; omega
    match hd : l.drop i with
    | a :: b :: c :: d :: e :: f :: g :: h :: t => exact ⟨a, b, c, d, e, f, g, h, t, rfl⟩
    | [] | [_] | [_,_] | [_,_,_] | [_,_,_,_] | [_,_,_,_,_] | [_,_,_,_,_,_] | [_,_,_,_,_,_,_] => simp [hd] at hl'
  have hg : l.getD (i + j) 0 = (l.drop i).getD j 0 := by simp [List.getD_eq_getElem?_getD]
  rw [hg, le64_eight _ _ _ _ _ _ _ _ _ _ _ ht, ht]
  apply BitVec.eq_of_getLsbD_eq
  intro k hk
  simp only [byteOf, BitVec.getLsbD_xor, BitVec.getLsbD_setWidth, BitVec.getLsbD_shiftLeft,
      BitVec.getLsbD_ushiftRight]
  interval_cases j <;> interval_cases k <;> simp

/-- Eight bytes are 64 bit steps. -/
theorem byteSerial_eight (r : Word) (d : List Byte) (h : d.length = 8) : byteSerial r d = crcBits 64 (r
    ^^^ le64 d 0) := by
  match d, h with
  | [a,b,c,d,e,f,g,h], _ =>
    have hb := crcBits_bytes 8 (le64 [a,b,c,d,e,f,g,h] 0)
    rw [crcBits_xor, show crcBits 64 (le64 [a,b,c,d,e,f,g,h] 0) = _ from hb]
    simp only [byteOf_le64 [a,b,c,d,e,f,g,h] 0 _ (by decide : 0 < 8) (by simp),
        byteOf_le64 [a,b,c,d,e,f,g,h] 0 _ (by decide : 1 < 8) (by simp),
            byteOf_le64 [a,b,c,d,e,f,g,h] 0 _ (by decide : 2 < 8) (by simp),
                byteOf_le64 [a,b,c,d,e,f,g,h] 0 _ (by decide : 3 < 8) (by simp),
                    byteOf_le64 [a,b,c,d,e,f,g,h] 0 _ (by decide : 4 < 8) (by simp),
                        byteOf_le64 [a,b,c,d,e,f,g,h] 0 _ (by decide : 5 < 8) (by simp),
                            byteOf_le64 [a,b,c,d,e,f,g,h] 0 _ (by decide : 6 < 8) (by simp),
                                byteOf_le64 [a,b,c,d,e,f,g,h] 0 _ (by decide : 7 < 8) (by simp)]
    simp only [byteSerial_cons, byteSerial_nil, crcBits_xor, ← crcBits_add, Nat.zero_add, List.getD]
    norm_num [BitVec.xor_assoc]

/-- `LE64` of a prefix that holds it. -/
theorem le64_take (l : List Byte) (i n : Nat) (h : i + 8 ≤ n) : le64 (l.take n) i = le64 l i := by
  unfold le64; congr 1; rw [List.drop_take, List.take_take]; congr 1; omega

/-- `LE64` of a suffix. -/
theorem le64_drop (l : List Byte) (i n : Nat) : le64 (l.drop n) i = le64 l (n + i) := by
  unfold le64; rw [List.drop_drop]

/-- The low half is linear. -/
theorem loHalf_xor (a b : Block) : loHalf (a ^^^ b) = loHalf a ^^^ loHalf b := BitVec.extractLsb'_xor

/-- The high half is linear. -/
theorem hiHalf_xor (a b : Block) : hiHalf (a ^^^ b) = hiHalf a ^^^ hiHalf b := BitVec.extractLsb'_xor

/-- The residue of a block: `poly128(a) mod P` as a register (00_scope.md R9). -/
def red (a : Block) : Word := crcBits 64 (loHalf a) ^^^ hiHalf a

/-- The residue is linear. -/
theorem red_xor (a b : Block) : red (a ^^^ b) = red a ^^^ red b := by
  simp only [red, loHalf_xor, hiHalf_xor, crcBits_xor]; ac_rfl

/-- Bit `i` of a little-endian value is bit `i mod 8` of byte `i / 8` (R7). -/
theorem getLsbD_leBits (w : Nat) (l : List Byte) (i : Nat) : (leBits w l).getLsbD i = (decide (i < w) &&
    (l.getD (i / 8) 0).getLsbD (i % 8)) := by
  induction l generalizing i with
  | nil => simp [leBits]
  | cons b l ih =>
    rw [leBits, BitVec.getLsbD_or, BitVec.getLsbD_setWidth, BitVec.getLsbD_shiftLeft, ih]
    by_cases h8 : i < 8
    · have h0 : i / 8 = 0 := by omega
      have h1 : i % 8 = i := by omega
      simp [h8, h0, h1]
    · have h0 : i / 8 = (i - 8) / 8 + 1 := by omega
      have h1 : (i - 8) % 8 = i % 8 := by omega
      rw [BitVec.getLsbD_of_ge b i (by omega), h0, List.getD_cons_succ, h1]
      by_cases hw : i < w
      · simp [h8, hw, show i - 8 < w by omega]
      · simp [hw]

/-- The halves of a 16-byte value. -/
theorem leBits128_split (l : List Byte) : loHalf (leBits 128 l) = leBits 64 (l.take 8) ∧ hiHalf
    (leBits 128 l) = leBits 64 (l.drop 8) := by
  constructor
  · apply BitVec.eq_of_getLsbD_eq
    intro q hq
    have : q / 8 < 8 := by omega
    rw [loHalf, BitVec.getLsbD_extractLsb', getLsbD_leBits, getLsbD_leBits]
    simp [hq, show q < 128 by omega, List.getD_eq_getElem?_getD, this]
  · apply BitVec.eq_of_getLsbD_eq
    intro q hq
    have h1 : (64 + q) / 8 = 8 + q / 8 := by omega
    have h2 : (64 + q) % 8 = q % 8 := by omega
    rw [hiHalf, BitVec.getLsbD_extractLsb', getLsbD_leBits, getLsbD_leBits]
    simp [hq, show 64 + q < 128 by omega, List.getD_eq_getElem?_getD, h1, h2]

/-- The halves of `LE128` (R7). -/
theorem le128_split (d : List Byte) (i : Nat) :
    loHalf (le128 d i) = le64 d i ∧ hiHalf (le128 d i) = le64 d (i+8) := by
  obtain ⟨h1, h2⟩ := leBits128_split ((d.drop i).take 16)
  constructor
  · rw [le128, h1, List.take_take]; rfl
  · rw [le128, h2, le64, List.drop_take, List.drop_drop]

/-- Sixteen bytes are 128 bit steps of the register and 64 of the residue of the block. -/
theorem byteSerial_sixteen (r : Word) (d : List Byte) (h : d.length = 16) : byteSerial r d = crcBits 128 r
    ^^^ crcBits 64 (red (le128 d 0)) := by
  obtain ⟨h1, h2⟩ := le128_split d 0
  rw [← List.take_append_drop 8 d, byteSerial_append, byteSerial_eight _ (d.take 8) (by simp; omega),
      byteSerial_eight _ (d.drop 8) (by simp; omega),
    List.take_append_drop, red, h1, h2, le64_take _ _ _ (by omega), le64_drop]
  simp only [crcBits_xor, ← crcBits_add]
  norm_num [BitVec.xor_assoc]

/-- The partial products are linear in the first operand. -/
theorem clmulBits_xor (a b c : Word) (n : Nat) : clmulBits (a ^^^ b) c n = clmulBits a c n ^^^ clmulBits b c n := by
  induction n with
  | zero => simp [clmulBits]
  | succ n ih =>
    simp only [clmulBits, ih]
    split
    · have hs : (a ^^^ b).setWidth 128 <<< n = a.setWidth 128 <<< n ^^^ b.setWidth 128 <<< n := by
        simp [BitVec.shiftLeft_xor_distrib]
      rw [hs]; ac_rfl
    · simp

/-- The product is linear in the first operand. -/
theorem clmul_xor (a b c : Word) : clmul (a ^^^ b) c = clmul a c ^^^ clmul b c := clmulBits_xor _ _ _ _

/-- Two linear functions of a word that agree on 0 and on the 64 single bits agree. -/
theorem eq_of_units {α : Type} (add : α → α → α) (f g : Word → α) (hf : ∀ a b, f (a ^^^ b) = add (f a) (f b))
    (hg : ∀ a b, g (a ^^^ b) = add (g a) (g b)) (h0 : f 0 = g 0) (hu : ∀ k,
        k < 64 → f (1#64 <<< k) = g (1#64 <<< k)) (a : Word) : f a = g a := by
  have key : ∀ n, n ≤ 64 → ∀ a : Word, (∀ i, n ≤ i → a.getLsbD i = false) → f a = g a := by
    intro n
    induction n with
    | zero =>
      intro _ a ha
      have : a = 0 := by apply BitVec.eq_of_getLsbD_eq; intro i _; simp [ha i]
      rw [this, h0]
    | succ n ih =>
      intro hn a ha
      by_cases hb : a.getLsbD n = true
      · have hs : a = (a ^^^ 1#64 <<< n) ^^^ 1#64 <<< n := by rw [BitVec.xor_assoc, BitVec.xor_self,
          BitVec.xor_zero]
        rw [hs, hf, hg, hu n (by omega), ih (by omega)]
        intro i hi
        rcases Nat.lt_or_ge i 64 with h64 | h64
        · rcases eq_or_ne i n with rfl | hne
          · simp [hb, h64]
          · have : 1 ≤ i - n := by omega
            rw [BitVec.getLsbD_xor, ha i (by omega), BitVec.getLsbD_shiftLeft, BitVec.getLsbD_one]
            simp; omega
        · exact BitVec.getLsbD_of_ge _ _ h64
      · apply ih (by omega)
        intro i hi
        rcases eq_or_ne i n with rfl | hne
        · simpa using hb
        · exact ha i (by omega)
  exact key 64 (le_refl _) a fun i hi => BitVec.getLsbD_of_ge _ _ hi

/-- The product of 0. -/
theorem clmul_zero (c : Word) : clmul 0 c = 0 := by
  have := clmul_xor 0 0 c; simpa using this

/-- The residue of a shifted word. -/
theorem red_shift (a : Word) (i : Nat) (hi : i < 64) : red (a.setWidth 128 <<< i) = crcBits (64 - i) a := by
  have hlo : loHalf (a.setWidth 128 <<< i) = a <<< i := by
    apply BitVec.eq_of_getLsbD_eq; intro k hk
    rw [loHalf, BitVec.getLsbD_extractLsb', BitVec.getLsbD_shiftLeft, BitVec.getLsbD_setWidth,
        BitVec.getLsbD_shiftLeft]
    by_cases h : k < i <;> simp [hk, h, show k < 128 by omega, show k - i < 128 by omega]
  have hhi : hiHalf (a.setWidth 128 <<< i) = a >>> (64 - i) := by
    apply BitVec.eq_of_getLsbD_eq; intro k hk
    rw [hiHalf, BitVec.getLsbD_extractLsb', BitVec.getLsbD_shiftLeft, BitVec.getLsbD_setWidth,
        BitVec.getLsbD_ushiftRight]
    simp [hk, show 64 + k < 128 by omega, show ¬ 64 + k < i by omega, show 64 - i + k = 64 + k - i by omega]
    intro _; omega
  have hsplit : a = (a <<< i) >>> i ^^^ (a >>> (64 - i)) <<< (64 - i) := by
    apply BitVec.eq_of_getLsbD_eq; intro k hk
    rw [BitVec.getLsbD_xor, BitVec.getLsbD_ushiftRight, BitVec.getLsbD_shiftLeft, BitVec.getLsbD_shiftLeft,
        BitVec.getLsbD_ushiftRight]
    by_cases h : k < 64 - i
    · simp [h, show i + k < 64 by omega]
    · simp [hk, h, show ¬ i + k < 64 by omega, show 64 - i + (k - (64 - i)) = k by omega]
  rw [red, hlo, hhi]
  conv_rhs => rw [hsplit]
  rw [crcBits_xor, crcBits_of_low_zero (n := 64 - i) (v := (a >>> (64 - i)) <<< (64 - i))
      (fun k hk => by simp [hk])]
  rw [← crcBits_of_low_zero (n := i) (v := a <<< i) (fun k hk => by simp [hk]), ← crcBits_add,
      show 64 - i + i = 64 by omega]
  congr 1
  apply BitVec.eq_of_getLsbD_eq; intro k hk
  simp only [BitVec.getLsbD_ushiftRight, BitVec.getLsbD_shiftLeft]
  by_cases h : 64 - i + k < 64
  · simp [h]
  · rw [BitVec.getLsbD_of_ge a _ (by omega)]; simp [h]

/-- The residue of one more partial product. -/
theorem red_clmulBits (a b : Word) (n : Nat) : red (clmulBits a b (n+1)) = red (clmulBits a b n)
    ^^^ (if b.getLsbD n then red (a.setWidth 128 <<< n) else 0) := by
  rw [clmulBits, red_xor]; split <;> simp [red, loHalf, hiHalf, show crcBits 64 0#64 = 0#64 from crcBits_zero 64]

/-- Bit steps commute. -/
theorem crcBits_comm (m : Nat) (a : Word) : crcBits m (crcBit a) = crcBit (crcBits m a) := by
  have h1 := crcBits_add m 1 a
  have h2 := crcBits_add 1 m a
  rw [Nat.add_comm, h2] at h1
  exact h1.symm

/-- A bit step of an operand is a bit step of the residue of the product. -/
theorem red_clmul_crcBit (a b : Word) : red (clmul (crcBit a) b) = crcBit (red (clmul a b)) := by
  have : ∀ n, n ≤ 64 → red (clmulBits (crcBit a) b n) = crcBit (red (clmulBits a b n)) := by
    intro n
    induction n with
    | zero => intro _; show red 0 = crcBit (red 0); decide +kernel
    | succ n ih =>
      intro hn
      rw [red_clmulBits, red_clmulBits, ih (by omega), crcBit_xor]
      congr 1
      split
      · rw [red_shift _ _ (by omega), red_shift _ _ (by omega), crcBits_comm]
      · decide +kernel
  exact this 64 (le_refl _)

/-- The product by a single bit is a shift. -/
theorem clmul_unit (a : Word) (j : Nat) (hj : j < 64) : clmul a (1#64 <<< j) = a.setWidth 128 <<< j := by
  have hb : ∀ n, n < 64 → ((1#64 <<< j).getLsbD n = decide (n = j)) := by
    intro n hn
    rw [BitVec.getLsbD_shiftLeft, BitVec.getLsbD_one]
    rw [Bool.eq_iff_iff]; simp [hn]; omega
  have : ∀ n, n ≤ 64 → clmulBits a (1#64 <<< j) n = if j < n then a.setWidth 128 <<< j else 0 := by
    intro n
    induction n with
    | zero => intro _; rfl
    | succ n ih =>
      intro hn
      rw [clmulBits, ih (by omega), hb n (by omega)]
      rcases Nat.lt_trichotomy j n with h | rfl | h
      · simp [h, show j < n + 1 by omega, show n ≠ j by omega]
      · simp
      · simp [show ¬ j < n by omega, show ¬ j < n + 1 by omega, show n ≠ j by omega]
  rw [clmul, this 64 (le_refl _), if_pos hj]

/-- The product is linear in the second operand. -/
theorem clmul_xor_right (a b c : Word) : clmul a (b ^^^ c) = clmul a b ^^^ clmul a c := by
  have : ∀ n, clmulBits a (b ^^^ c) n = clmulBits a b n ^^^ clmulBits a c n := by
    intro n
    induction n with
    | zero => simp [clmulBits]
    | succ n ih =>
      simp only [clmulBits, ih, BitVec.getLsbD_xor]
      generalize a.setWidth 128 <<< n = z
      cases b.getLsbD n <;> cases c.getLsbD n <;> simp
      · ac_rfl
      · ac_rfl
      · rw [show ∀ p q u : Block, p ^^^ u ^^^ (q ^^^ u) = p ^^^ q ^^^ (u
          ^^^ u) from fun p q u => by ac_rfl, BitVec.xor_self, BitVec.xor_zero]
  exact this 64

/-- The product commutes. -/
theorem clmul_comm (a b : Word) : clmul a b = clmul b a := by
  refine eq_of_units (· ^^^ ·) (fun a => clmul a b) (clmul b) (fun x y => clmul_xor x y b)
      (fun x y => clmul_xor_right b x y) ?_ ?_ a
  · show clmul 0 b = clmul b 0
    rw [clmul_zero]; have := clmul_xor_right b 0 0; exact (by simpa using this : clmul b 0 = 0).symm
  · intro k hk
    refine eq_of_units (· ^^^ ·) (fun b => clmul (1#64 <<< k) b) (fun b => clmul b (1#64 <<< k))
        (fun x y => clmul_xor_right _ x y) (fun x y => clmul_xor x y _) ?_ ?_ b
    · show clmul _ 0 = clmul 0 _
      rw [clmul_zero]; have := clmul_xor_right (1#64 <<< k) 0 0; simpa using this
    · intro j hj
      show clmul (1#64 <<< k) (1#64 <<< j) = clmul (1#64 <<< j) (1#64 <<< k)
      rw [clmul_unit _ _ hj, clmul_unit _ _ hk]
      apply BitVec.eq_of_getLsbD_eq; intro i hi
      simp only [BitVec.getLsbD_shiftLeft, BitVec.getLsbD_setWidth, BitVec.getLsbD_one, hi, decide_true,
          Bool.true_and]
      rw [Bool.eq_iff_iff]; simp; omega

/-- The residue of the product by `x^n mod P`, reflected, is `n + 1` bit steps. -/
theorem red_clmul_pow (n : Nat) (a : Word) : red (clmul a (crcBits n (1#64 <<< 63))) = crcBits (n + 1) a := by
  have h : ∀ n u, red (clmul (crcBits n u) a) = crcBits n (red (clmul u a)) := by
    intro n
    induction n with
    | zero => intro u; rfl
    | succ n ih => intro u; rw [crcBits, ih, red_clmul_crcBit, crcBits]
  rw [clmul_comm, h, clmul_comm, clmul_unit _ _ (by decide), red_shift _ _ (by decide), ← crcBits_add]

/-- `K(127)` as bit steps of the register 1. -/
theorem k127 : foldK 127 = crcBits 127 (1#64 <<< 63) := by decide +kernel

/-- From one constant to the one 64 exponents on. -/
theorem kstep (n : Nat) (h : foldK n = crcBits n (1#64 <<< 63)) (hs : foldK (64 + n) = crcBits 64 (foldK n)) :
    foldK (64 + n) = crcBits (64 + n) (1#64 <<< 63) := by
  rw [hs, h, ← crcBits_add]

/-- `K(n)` is `n` bit steps of the register that reads as 1 (41_fold_engine.md R121). -/
theorem foldK_eq : ∀ n ∈ foldExponents, foldK n = crcBits n (1#64 <<< 63) := by
  have h0 := k127
  have h1 := kstep 127 h0 (by decide +kernel)
  have h2 := kstep 191 h1 (by decide +kernel)
  have h3 := kstep 255 h2 (by decide +kernel)
  have h4 := kstep 319 h3 (by decide +kernel)
  have h5 := kstep 383 h4 (by decide +kernel)
  have h6 := kstep 447 h5 (by decide +kernel)
  have h7 := kstep 511 h6 (by decide +kernel)
  have h8 := kstep 575 h7 (by decide +kernel)
  have h9 := kstep 639 h8 (by decide +kernel)
  have h10 := kstep 703 h9 (by decide +kernel)
  have h11 := kstep 767 h10 (by decide +kernel)
  have h12 := kstep 831 h11 (by decide +kernel)
  have h13 := kstep 895 h12 (by decide +kernel)
  have h14 := kstep 959 h13 (by decide +kernel)
  have h15 := kstep 1023 h14 (by decide +kernel)
  intro n hn
  simp only [foldExponents, List.mem_cons, List.not_mem_nil, or_false] at hn
  rcases hn with rfl | rfl | rfl | rfl | rfl | rfl | rfl | rfl | rfl | rfl | rfl | rfl | rfl | rfl | rfl | rfl
      <;> assumption

/-- The residue of the product by `K(n)` (R121). -/
theorem red_clmul (n : Nat) (hn : n ∈ foldExponents) (a : Word) :
    red (clmul a (foldK n)) = crcBits (n + 1) a := by rw [foldK_eq n hn, red_clmul_pow]

/-- Folding by `D` bytes is `8 D` bit steps of the residue (R123). -/
theorem red_foldBy (D : Nat) (hD : D ∈ foldDistances) (x : Block) : red (foldBy D x) = crcBits (8 * D) (red x) := by
  have h1 : 8 * D + 63 ∈ foldExponents := by
    simp only [foldExponents, foldDistances, List.mem_cons, List.not_mem_nil, or_false] at hD ⊢; omega
  have h2 : 8 * D - 1 ∈ foldExponents := by
    simp only [foldExponents, foldDistances, List.mem_cons, List.not_mem_nil, or_false] at hD ⊢; omega
  have h0 : 8 * D - 1 + 1 = 8 * D := by simp only [foldDistances, List.mem_cons,
      List.not_mem_nil, or_false] at hD; omega
  rw [foldBy, red_xor, red_clmul _ h1, red_clmul _ h2, h0]
  rw [show crcBits (8 * D) (red x) = crcBits (8*D) (crcBits 64 (loHalf x))
      ^^^ crcBits (8*D) (hiHalf x) from crcBits_xor _ _ _, ← crcBits_add]

/-- The low half of a widened word. -/
theorem loHalf_setWidth (v : Word) : loHalf (v.setWidth 128) = v := by
  apply BitVec.eq_of_getLsbD_eq; intro i hi
  rw [loHalf, BitVec.getLsbD_extractLsb', BitVec.getLsbD_setWidth]; simp [hi, show i < 128 by omega]

/-- The high half of a widened word. -/
theorem hiHalf_setWidth (v : Word) : hiHalf (v.setWidth 128) = 0 := by
  apply BitVec.eq_of_getLsbD_eq; intro i hi
  rw [hiHalf, BitVec.getLsbD_extractLsb', BitVec.getLsbD_setWidth]; simp

/-- The residue of a widened word. -/
theorem red_setWidth (v : Word) : red (v.setWidth 128) = crcBits 64 v := by
  rw [red, loHalf_setWidth, hiHalf_setWidth]; exact BitVec.xor_zero

/-- The fold-down is 64 bit steps of the residue. -/
theorem red_fold64 (a : Block) : red (fold64 a) = crcBits 64 (red a) := by
  rw [fold64, red_xor, red_clmul 127 (by simp [foldExponents]), red_setWidth, red, crcBits_xor, ← crcBits_add]

/-! ## Polynomial readings -/

open Polynomial

/-- `poly64` is linear (00_scope.md R9). -/
theorem readsWord_xor {a b : Word} {pa pb pc : (ZMod 2)[X]} (ha : ReadsWord a pa) (hb : ReadsWord b pb) (hc : ReadsWord (a ^^^ b) pc) : pc = pa + pb := by
  unfold ReadsWord at *
  rw [ha, hb, hc, ← Finset.sum_add_distrib]
  refine Finset.sum_congr rfl fun i _ => ?_
  rw [BitVec.getLsbD_xor]
  cases a.getLsbD i <;> cases b.getLsbD i <;> simp [CharTwo.add_self_eq_zero]

/-- `P(x)` is `x^64` and the polynomial of the reflected constant (R9). -/
theorem reads_polyR {p g : (ZMod 2)[X]} (hp : ReadsWord polyR p) (hg : ReadsGenerator g) : g = X ^ 64 + p := by
  have hr : ∀ i, i < 64 → polyR.getLsbD i = polyN.getLsbD (63 - i) := by decide +kernel
  have h := Finset.sum_range_reflect (fun i => if polyN.getLsbD i then (X : (ZMod 2)[X]) ^ i else 0) 64
  rw [show g = _ from hg, show p = _ from hp]
  refine congrArg (X ^ 64 + ·) (h.symm.trans ?_)
  refine Finset.sum_congr rfl fun i hi => ?_
  have hi := Finset.mem_range.mp hi
  rw [show 64 - 1 - i = 63 - i by omega, hr i hi]

/-- A right shift multiplies by x, but for the term that leaves (R9). -/
theorem readsWord_shift {r : Word} {p q : (ZMod 2)[X]} (hp : ReadsWord r p) (hq : ReadsWord (r >>> 1) q) :
    X * p = q + (if r.getLsbD 0 then X ^ 64 else 0) := by
  have h1 : p = _ := hp.trans (Finset.sum_range_succ' (fun i => if r.getLsbD i then (X : (ZMod 2)[X]) ^ (63 - i) else 0) 63)
  have h2 : q = _ := hq.trans (Finset.sum_range_succ (fun i => if (r >>> 1).getLsbD i then (X : (ZMod 2)[X]) ^ (63 - i) else 0) 63)
  have h3 : (r >>> 1).getLsbD 63 = false := by simp
  rw [h3, if_neg (by simp), add_zero] at h2
  rw [h1, h2, mul_add, Finset.mul_sum]
  refine congrArg₂ (· + ·) (Finset.sum_congr rfl fun i hi => ?_) ?_
  · have hi := Finset.mem_range.mp hi
    rw [BitVec.getLsbD_ushiftRight, Nat.add_comm 1 i, mul_ite, mul_zero, ← pow_succ', show 63 - (i + 1) + 1 = 63 - i by omega]
  · rw [mul_ite, mul_zero, ← pow_succ']

/-- A bit step multiplies by x modulo `P(x)` (R9). -/
theorem readsWord_crcBit {r : Word} {p q g : (ZMod 2)[X]} (hp : ReadsWord r p) (hq : ReadsWord (crcBit r) q) (hg : ReadsGenerator g) :
    X * p = q + (if r.getLsbD 0 then g else 0) := by
  have hs := readsWord_shift hp rfl
  rw [crcBit_eq] at hq
  have hx := readsWord_xor (b := if r.getLsbD 0 = true then polyR else 0) rfl rfl hq
  rw [hs, hx, add_assoc]
  congr 1
  split
  · rw [reads_polyR rfl hg, add_comm (X ^ 64), ← add_assoc, CharTwo.add_self_eq_zero, zero_add]
  · simp

end Sys2Proof.Machine
end

