-- ==== Sys2Proof/Laws/Memory.lean ====
section
/-! SUPPORT. The laws of data memory: read after write, the canonical form kept, and what an admitted buffer is. -/

namespace Sys2Proof.Machine

/-- Every listed address of a canonical memory's tail is above its head. -/
theorem MemoryWf.head_lt {k : Nat} {v : Byte} {m : List Host.Cell} (h : MemoryWf ((k, v) :: m)) :
    ∀ cell ∈ m, k < cell.1 :=
  (List.pairwise_cons.mp h.1).1

/-- The tail of a canonical memory is canonical. -/
theorem MemoryWf.tail {cell : Host.Cell} {m : List Host.Cell} (h : MemoryWf (cell :: m)) : MemoryWf m :=
  ⟨(List.pairwise_cons.mp h.1).2, fun x hx => h.2 x (List.mem_cons_of_mem _ hx)⟩

/-- An address below every listed one reads as unlisted. -/
theorem readByte_below {m : List Host.Cell} {a : Nat} (h : ∀ cell ∈ m, a < cell.1) : readByte m a = unlistedByte := by
  induction m with
  | nil => rfl
  | cons cell m ih =>
    have hk : cell.1 ≠ a := Nat.ne_of_gt (h cell (List.mem_cons_self ..))
    simp only [readByte, hk, if_false]
    exact ih fun x hx => h x (List.mem_cons_of_mem _ hx)

/-- A read after a write: the byte written at that address, the old byte everywhere else. -/
theorem readByte_writeByte {m : List Host.Cell} (h : MemoryWf m) (a b : Nat) (v : Byte) :
    readByte (writeByte m a v) b = if b = a then v else readByte m b := by
  induction m with
  | nil =>
    rcases eq_or_ne a b with rfl | hb <;> by_cases hv : v = unlistedByte
    · simp [writeByte, readByte, hv]
    · simp [writeByte, readByte, hv]
    · simp [writeByte, readByte, hv]
    · simp [writeByte, readByte, hv, hb, hb.symm]
  | cons cell m ih =>
    obtain ⟨k, w⟩ := cell
    have hlt := h.head_lt
    have ih := ih h.tail
    simp only [writeByte]
    by_cases hak : a < k
    · have hbelow : readByte ((k, w) :: m) a = unlistedByte :=
        readByte_below fun x hx => by
          rcases List.mem_cons.mp hx with rfl | hx
          · exact hak
          · exact Nat.lt_trans hak (hlt x hx)
      by_cases hv : v = unlistedByte <;> by_cases hb : b = a
      · subst hb; simp [hak, hv, hbelow]
      · simp [hak, hv, hb]
      · subst hb; simp [hak, hv, readByte]
      · simp [hak, hv, hb, readByte, Ne.symm hb]
    · by_cases hka : a = k
      · subst hka
        have hbelow : readByte m a = unlistedByte := readByte_below hlt
        by_cases hv : v = unlistedByte <;> by_cases hb : b = a
        · subst hb; simp [hv, hbelow]
        · simp [hv, hb, readByte, Ne.symm hb]
        · subst hb; simp [hv, readByte]
        · simp [hv, hb, readByte, Ne.symm hb]
      · simp only [hak, hka, if_false, readByte, ih]
        by_cases hb : b = a
        · subst hb; simp [Ne.symm hka]
        · simp [hb]

/-- A write lists no address but the one written and those listed before. -/
theorem mem_writeByte {m : List Host.Cell} {a : Nat} {v : Byte} {cell : Host.Cell} (h : cell ∈ writeByte m a v) :
    cell = (a, v) ∧ v ≠ 0 ∨ cell ∈ m := by
  induction m with
  | nil =>
    by_cases hv : v = unlistedByte
    · simp [writeByte, hv] at h
    · exact .inl ⟨by simpa [writeByte, hv] using h, hv⟩
  | cons kw m ih =>
    obtain ⟨k, w⟩ := kw
    by_cases hv : v = unlistedByte <;> by_cases hak : a < k <;> by_cases hka : a = k <;>
      simp only [writeByte, hv, hak, hka, if_true, if_false, List.mem_cons, lt_irrefl] at h ⊢ <;>
      first
      | exact .inr h
      | exact .inr (.inr h)
      | (rcases h with h | h
         · first | exact .inl ⟨h, hv⟩ | exact .inr (.inl h)
         · first
           | exact .inr h
           | exact .inr (.inr h)
           | (subst hv; rcases ih h with h | h
              · exact absurd rfl h.2
              · exact .inr (.inr h))
           | (rcases ih h with h | h
              · exact .inl h
              · exact .inr (.inr h)))

/-- Every write keeps the canonical form. -/
theorem writeByte_wf {m : List Host.Cell} (h : MemoryWf m) (a : Nat) (v : Byte) : MemoryWf (writeByte m a v) := by
  refine ⟨?_, fun cell hc => (mem_writeByte hc).elim (fun e => by rw [e.1]; exact e.2) (h.2 cell)⟩
  induction m with
  | nil => by_cases hv : v = unlistedByte <;> simp [writeByte, hv]
  | cons kw m ih =>
    obtain ⟨k, w⟩ := kw
    have hlt := h.head_lt
    have ih := ih h.tail
    have hp := List.pairwise_cons.mp h.1
    by_cases hak : a < k
    · by_cases hv : v = unlistedByte
      · simpa [writeByte, hak, hv] using h.1
      · simp only [writeByte, hak, hv, if_true, if_false]
        refine List.pairwise_cons.mpr ⟨fun x hx => ?_, h.1⟩
        rcases List.mem_cons.mp hx with rfl | hx
        · exact hak
        · exact Nat.lt_trans hak (hlt x hx)
    · by_cases hka : a = k
      · subst hka
        by_cases hv : v = unlistedByte
        · simpa [writeByte, hv] using hp.2
        · simpa [writeByte, hv] using hp
      · simp only [writeByte, hak, hka, if_false]
        refine List.pairwise_cons.mpr ⟨fun x hx => ?_, ih⟩
        rcases mem_writeByte hx with ⟨rfl, -⟩ | hx
        · omega
        · exact hlt x hx

/-- The memory of `State.reset` is in canonical form. -/
theorem reset_memory_wf : MemoryWf State.reset.dmem := by decide

/-- `memRead` gives `n` bytes. -/
@[simp] theorem memRead_length (m : List Host.Cell) (a n : Nat) : (memRead m a n).length = n := by
  induction n generalizing a with
  | zero => rfl
  | succ n ih => simp [memRead, ih]

/-- `memRead` is the ascending bytes of R52. -/
theorem memRead_eq_map (m : List Host.Cell) (a n : Nat) :
    memRead m a n = (List.range n).map fun k => readByte m (a + k) := by
  induction n generalizing a with
  | zero => rfl
  | succ n ih =>
    simp only [memRead, ih, List.range_succ_eq_map, List.map_cons, List.map_map, Nat.add_zero]
    congr 1
    refine List.map_congr_left fun k _ => ?_
    simp only [Function.comp_apply]
    congr 1
    omega

/-- Two adjacent reads are one read. -/
theorem memRead_add (m : List Host.Cell) (a n k : Nat) :
    memRead m a (n + k) = memRead m a n ++ memRead m (a + n) k := by
  induction n generalizing a with
  | zero => simp [memRead]
  | succ n ih =>
    rw [Nat.succ_add, memRead, memRead, ih, List.cons_append]
    congr 3
    omega

/-- `admitsAll` says that every one of the `n` bytes is admitted (R53). -/
theorem admitsAll_iff (p : Platform) (a n : Nat) :
    admitsAll p a n = true ↔ ∀ k, k < n → admits p (a + k) = true := by
  induction n generalizing a with
  | zero => simp [admitsAll]
  | succ n ih =>
    rw [admitsAll, Bool.and_eq_true, ih]
    constructor
    · rintro ⟨h0, hs⟩ k hk
      cases k with
      | zero => simpa using h0
      | succ k =>
        have := hs k (by omega)
        rwa [show a + 1 + k = a + (k + 1) by omega] at this
    · intro h
      refine ⟨by simpa using h 0 (by omega), fun k hk => ?_⟩
      have := h (k + 1) (by omega)
      rwa [show a + (k + 1) = a + 1 + k by omega] at this

/-- Everything `writeBuffer` can answer (R163). -/
theorem writeBuffer_cases (s : State) (x : Context) :
    (writeBuffer s x = .ok (memRead s.dmem x.arg0.toNat x.arg1.toNat) ∧
      (x.arg1.toNat = 0 ∨ (x.arg0.toNat + x.arg1.toNat ≤ 2 ^ s.platform.aw ∧
        ∀ k, k < x.arg1.toNat → admits s.platform (x.arg0.toNat + k) = true))) ∨
    (writeBuffer s x = .error .accessFault ∧ x.arg1.toNat ≠ 0 ∧
      (2 ^ s.platform.aw < x.arg0.toNat + x.arg1.toNat ∨
        ∃ k, k < x.arg1.toNat ∧ admits s.platform (x.arg0.toNat + k) = false)) := by
  unfold writeBuffer
  by_cases h0 : x.arg1.toNat = 0
  · simp [h0, memRead]
  · by_cases hw : 2 ^ s.platform.aw < x.arg0.toNat + x.arg1.toNat
    · simp [h0, hw]
    · by_cases ha : admitsAll s.platform x.arg0.toNat x.arg1.toNat = true
      · exact .inl ⟨by simp [h0, hw, ha], .inr ⟨by omega, (admitsAll_iff ..).mp ha⟩⟩
      · refine .inr ⟨by simp [h0, hw, ha], h0, .inr ?_⟩
        rw [admitsAll_iff] at ha
        simpa using ha

end Sys2Proof.Machine
end

