-- ==== Sys2Proof/Laws/State.lean ====
section
/-! SUPPORT. One lemma per field per named update of a context or of the state, true by `rfl`, so that no later
proof unfolds a record update. -/

namespace Sys2Proof.Machine

variable (s : State) (c : Nat) (x : Context) (e : Commit) (code : ErrorCode)

/-! ## `Context.setCode` -/

@[simp] theorem Context.setCode_crc : (x.setCode code).crc = x.crc := rfl
@[simp] theorem Context.setCode_bound : (x.setCode code).bound = x.bound := rfl
@[simp] theorem Context.setCode_eng : (x.setCode code).eng = x.eng := rfl
@[simp] theorem Context.setCode_arg0 : (x.setCode code).arg0 = x.arg0 := rfl
@[simp] theorem Context.setCode_arg1 : (x.setCode code).arg1 = x.arg1 := rfl
@[simp] theorem Context.setCode_result : (x.setCode code).result = x.result := rfl
@[simp] theorem Context.setCode_code : (x.setCode code).code = code := rfl
@[simp] theorem Context.setCode_sticky : (x.setCode code).sticky = (x.sticky || decide (code ≠ .ok)) := rfl

/-! ## `State.setCtx` -/

@[simp] theorem State.setCtx_platform : (s.setCtx c x).platform = s.platform := rfl
@[simp] theorem State.setCtx_capsIn : (s.setCtx c x).capsIn = s.capsIn := rfl
@[simp] theorem State.setCtx_caps : (s.setCtx c x).caps = s.caps := rfl
@[simp] theorem State.setCtx_forceTable : (s.setCtx c x).forceTable = s.forceTable := rfl
@[simp] theorem State.setCtx_dispatch : (s.setCtx c x).dispatch = s.dispatch := rfl
@[simp] theorem State.setCtx_ctxs : (s.setCtx c x).ctxs = s.ctxs.set c x := rfl
@[simp] theorem State.setCtx_dmem : (s.setCtx c x).dmem = s.dmem := rfl
@[simp] theorem State.setCtx_pending : (s.setCtx c x).pending = s.pending := rfl
@[simp] theorem State.setCtx_reads : (s.setCtx c x).reads = s.reads := rfl

/-! ## `commitCommand` -/

@[simp] theorem commitCommand_platform : (commitCommand s c e).platform = s.platform := rfl
@[simp] theorem commitCommand_capsIn : (commitCommand s c e).capsIn = s.capsIn := rfl
@[simp] theorem commitCommand_caps : (commitCommand s c e).caps = s.caps := rfl
@[simp] theorem commitCommand_forceTable : (commitCommand s c e).forceTable = s.forceTable := rfl
@[simp] theorem commitCommand_dispatch : (commitCommand s c e).dispatch = e.dispatch := rfl
@[simp] theorem commitCommand_ctxs : (commitCommand s c e).ctxs = s.ctxs.set c (e.ctx.setCode .ok) := rfl
@[simp] theorem commitCommand_dmem : (commitCommand s c e).dmem = s.dmem := rfl
@[simp] theorem commitCommand_pending : (commitCommand s c e).pending = s.pending := rfl
@[simp] theorem commitCommand_reads : (commitCommand s c e).reads = s.reads := rfl

/-! ## `failCommand` -/

@[simp] theorem failCommand_platform : (failCommand s c x code).platform = s.platform := rfl
@[simp] theorem failCommand_capsIn : (failCommand s c x code).capsIn = s.capsIn := rfl
@[simp] theorem failCommand_caps : (failCommand s c x code).caps = s.caps := rfl
@[simp] theorem failCommand_forceTable : (failCommand s c x code).forceTable = s.forceTable := rfl
@[simp] theorem failCommand_dispatch : (failCommand s c x code).dispatch = s.dispatch := rfl
@[simp] theorem failCommand_ctxs : (failCommand s c x code).ctxs = s.ctxs.set c (x.setCode code) := rfl
@[simp] theorem failCommand_dmem : (failCommand s c x code).dmem = s.dmem := rfl
@[simp] theorem failCommand_pending : (failCommand s c x code).pending = s.pending := rfl
@[simp] theorem failCommand_reads : (failCommand s c x code).reads = s.reads := rfl

/-! ## `blockReset` -/

@[simp] theorem blockReset_platform : (blockReset s).platform = s.platform := rfl
@[simp] theorem blockReset_capsIn : (blockReset s).capsIn = s.capsIn := rfl
@[simp] theorem blockReset_caps : (blockReset s).caps = s.capsIn := rfl
@[simp] theorem blockReset_forceTable : (blockReset s).forceTable = false := rfl
@[simp] theorem blockReset_dispatch : (blockReset s).dispatch = none := rfl
@[simp] theorem blockReset_ctxs : (blockReset s).ctxs = s.ctxs.map (fun _ => Context.reset) := rfl
@[simp] theorem blockReset_dmem : (blockReset s).dmem = s.dmem := rfl
@[simp] theorem blockReset_pending : (blockReset s).pending = s.pending := rfl
@[simp] theorem blockReset_reads : (blockReset s).reads = s.reads := rfl

end Sys2Proof.Machine
end

