-- ==== Sys2Proof/Laws/Exec.lean ====
section
/-! SUPPORT. Everything a command can do, said once: each meaning as `runCommand` of its body, and the cases of
`runCommand`. -/

namespace Sys2Proof.Machine

/-- The body of each command: what it commits on contents `x` of its context, or the error it raises. -/
def commandBody (i : Instr) (s : State) (x : Context) : Except ErrorCode Commit :=
  match i with
  | .new _ => .ok { dispatch := (bindNew s).2, ctx := { x with eng := some (bindNew s).1, bound := true, crc := crcInit } }
  | .reset _ => needBound x (.ok { dispatch := s.dispatch, ctx := { x with crc := crcInit } })
  | .write _ => needBound x (extendCrc s x (boundUpdate x.eng))
  | .writeT _ => needBound x (extendCrc s x tableUpdate)
  | .writeF _ => needBound x (if foldOk s.caps then extendCrc s x foldUpdate else .error .foldUnavailable)
  | .sum _ => needBound x (.ok { dispatch := s.dispatch, ctx := { x with result := x.crc ^^^ xorOut } })
  | .select _ => .ok { dispatch := (resolve s).2, ctx := { x with result := (engineBits (some (resolve s).1)).setWidth 64 } }
  | .drop _ => needBound x (.ok { dispatch := s.dispatch, ctx := { x with bound := false, eng := none, crc := crcInit } })

/-- Every command is `runCommand` of its body. -/
theorem exec_eq_runCommand (i : Instr) (s : State) : exec i s = runCommand s i.ctx (commandBody i s) := by
  cases i <;> rfl

/-- A command to an absent context is ignored. -/
theorem runCommand_absent {s : State} {c : Nat} {body : Context → Except ErrorCode Commit} (h : s.ctxs[c]? = none) :
    runCommand s c body = .next s := by
  simp [runCommand, h]

/-- A command that completes. -/
theorem runCommand_ok {s : State} {c : Nat} {x : Context} {body : Context → Except ErrorCode Commit} {e : Commit}
    (h : s.ctxs[c]? = some x) (hb : body x = .ok e) : runCommand s c body = .next (commitCommand s c e) := by
  simp [runCommand, h, hb]

/-- A command that fails. -/
theorem runCommand_error {s : State} {c : Nat} {x : Context} {body : Context → Except ErrorCode Commit}
    {code : ErrorCode} (h : s.ctxs[c]? = some x) (hb : body x = .error code) :
    runCommand s c body = .next (failCommand s c x code) := by
  simp [runCommand, h, hb]

/-- Everything a command can do (R160, R203). -/
theorem runCommand_cases (s : State) (c : Nat) (body : Context → Except ErrorCode Commit) :
    (s.ctxs[c]? = none ∧ runCommand s c body = .next s) ∨
    ∃ x, s.ctxs[c]? = some x ∧
      ((∃ e, body x = .ok e ∧ runCommand s c body = .next (commitCommand s c e)) ∨
       ∃ code, body x = .error code ∧ runCommand s c body = .next (failCommand s c x code)) := by
  cases h : s.ctxs[c]? with
  | none => exact .inl ⟨rfl, runCommand_absent h⟩
  | some x =>
    refine .inr ⟨x, rfl, ?_⟩
    cases hb : body x with
    | ok e => exact .inl ⟨e, rfl, runCommand_ok h hb⟩
    | error code => exact .inr ⟨code, rfl, runCommand_error h hb⟩

/-- What a completed UNBOUND check leaves. -/
theorem needBound_ok {x : Context} {body : Except ErrorCode Commit} {e : Commit} (h : needBound x body = .ok e) :
    x.bound = true ∧ body = .ok e := by
  unfold needBound at h
  cases hb : x.bound <;> simp [hb] at h
  exact ⟨rfl, h⟩

/-- How a command that needs a live Digest fails. -/
theorem needBound_error {x : Context} {body : Except ErrorCode Commit} {code : ErrorCode}
    (h : needBound x body = .error code) :
    x.bound = false ∧ code = .unbound ∨ x.bound = true ∧ body = .error code := by
  unfold needBound at h
  cases hb : x.bound <;> simp [hb] at h
  · exact .inl ⟨rfl, h.symm⟩
  · exact .inr ⟨rfl, h⟩

/-- What a completed WRITE commits (R164 to R166). -/
theorem extendCrc_ok {s : State} {x : Context} {update : Word → List Byte → Word} {e : Commit}
    (h : extendCrc s x update = .ok e) :
    e = { dispatch := s.dispatch,
          ctx := { x with crc := update x.crc (memRead s.dmem x.arg0.toNat x.arg1.toNat) } } := by
  rcases writeBuffer_cases s x with ⟨hb, -⟩ | ⟨hb, -⟩ <;> simp [extendCrc, hb] at h
  exact h.symm

/-- The only error of the buffer is ACCESS_FAULT (R163). -/
theorem extendCrc_error {s : State} {x : Context} {update : Word → List Byte → Word} {code : ErrorCode}
    (h : extendCrc s x update = .error code) : code = .accessFault := by
  rcases writeBuffer_cases s x with ⟨hb, -⟩ | ⟨hb, -⟩ <;> simp [extendCrc, hb] at h
  exact h.symm

/-- No command raises the code OK. -/
theorem commandBody_error_ne_ok {i : Instr} {s : State} {x : Context} {code : ErrorCode}
    (h : commandBody i s x = .error code) : code ≠ .ok := by
  cases i with
  | new => cases h
  | select => cases h
  | reset | sum | drop =>
    rcases needBound_error h with ⟨-, rfl⟩ | ⟨-, h⟩
    · decide
    · cases h
  | write | writeT =>
    rcases needBound_error h with ⟨-, rfl⟩ | ⟨-, h⟩
    · decide
    · rw [extendCrc_error h]; decide
  | writeF =>
    rcases needBound_error h with ⟨-, rfl⟩ | ⟨-, h⟩
    · decide
    · split at h
      · rw [extendCrc_error h]; decide
      · cases h; decide

/-- What `Resolve` answers and leaves (R151). -/
theorem resolve_snd (s : State) : (resolve s).2 = some (resolve s).1 := by
  unfold resolve; split <;> rfl

/-- `FOLD_OK` is all three capability bits (R150). -/
theorem foldOk_iff (v : BitVec 3) : foldOk v = true ↔ v = 0b111#3 := by
  revert v; decide

/-- A command on a present context whose body commits. -/
theorem exec_ok {i : Instr} {s : State} {x : Context} {e : Commit} (hx : s.ctxs[i.ctx]? = some x)
    (h : commandBody i s x = .ok e) : exec i s = .next (commitCommand s i.ctx e) := by
  rw [exec_eq_runCommand, runCommand_ok hx h]

/-- A command on a present context whose body raises an error. -/
theorem exec_error {i : Instr} {s : State} {x : Context} {code : ErrorCode} (hx : s.ctxs[i.ctx]? = some x)
    (h : commandBody i s x = .error code) : exec i s = .next (failCommand s i.ctx x code) := by
  rw [exec_eq_runCommand, runCommand_error hx h]

/-- Everything a command that answers a next state can do. -/
theorem exec_cases {i : Instr} {s t : State} (h : exec i s = .next t) :
    (s.ctxs[i.ctx]? = none ∧ t = s) ∨
    ∃ x, s.ctxs[i.ctx]? = some x ∧
      ((∃ e, commandBody i s x = .ok e ∧ t = commitCommand s i.ctx e) ∨
       ∃ code, commandBody i s x = .error code ∧ t = failCommand s i.ctx x code) := by
  rw [exec_eq_runCommand] at h
  rcases runCommand_cases s i.ctx (commandBody i s) with ⟨h1, h2⟩ | ⟨x, hx, ⟨e, he, h2⟩ | ⟨code, he, h2⟩⟩ <;>
    rw [h2] at h <;> cases h
  · exact .inl ⟨h1, rfl⟩
  · exact .inr ⟨x, hx, .inl ⟨e, he, rfl⟩⟩
  · exact .inr ⟨x, hx, .inr ⟨code, he, rfl⟩⟩

/-- Everything a command can commit. -/
theorem commandBody_ok {i : Instr} {s : State} {x : Context} {e : Commit} (h : commandBody i s x = .ok e) :
    (i = .new i.ctx ∧
      e = { dispatch := (bindNew s).2, ctx := { x with eng := some (bindNew s).1, bound := true, crc := crcInit } }) ∨
    (i = .reset i.ctx ∧ x.bound = true ∧ e = { dispatch := s.dispatch, ctx := { x with crc := crcInit } }) ∨
    ((i = .write i.ctx ∨ i = .writeT i.ctx ∨ i = .writeF i.ctx) ∧ x.bound = true ∧
      ∃ v, e = { dispatch := s.dispatch, ctx := { x with crc := v } }) ∨
    (i = .sum i.ctx ∧ x.bound = true ∧ e = { dispatch := s.dispatch, ctx := { x with result := x.crc ^^^ xorOut } }) ∨
    (i = .select i.ctx ∧
      e = { dispatch := (resolve s).2,
            ctx := { x with result := (engineBits (some (resolve s).1)).setWidth 64 } }) ∨
    (i = .drop i.ctx ∧ x.bound = true ∧
      e = { dispatch := s.dispatch, ctx := { x with bound := false, eng := none, crc := crcInit } }) := by
  cases i with
  | new c => cases h; exact .inl ⟨rfl, rfl⟩
  | reset c => obtain ⟨hb, h⟩ := needBound_ok h; cases h; exact .inr (.inl ⟨rfl, hb, rfl⟩)
  | write c => obtain ⟨hb, h⟩ := needBound_ok h; exact .inr (.inr (.inl ⟨.inl rfl, hb, _, extendCrc_ok h⟩))
  | writeT c => obtain ⟨hb, h⟩ := needBound_ok h; exact .inr (.inr (.inl ⟨.inr (.inl rfl), hb, _, extendCrc_ok h⟩))
  | writeF c =>
    obtain ⟨hb, h⟩ := needBound_ok h
    split at h
    · exact .inr (.inr (.inl ⟨.inr (.inr rfl), hb, _, extendCrc_ok h⟩))
    · cases h
  | sum c => obtain ⟨hb, h⟩ := needBound_ok h; cases h; exact .inr (.inr (.inr (.inl ⟨rfl, hb, rfl⟩)))
  | select c => cases h; exact .inr (.inr (.inr (.inr (.inl ⟨rfl, rfl⟩))))
  | drop c => obtain ⟨hb, h⟩ := needBound_ok h; cases h; exact .inr (.inr (.inr (.inr (.inr ⟨rfl, hb, rfl⟩))))

/-- A readable buffer is fetched whole (R163). -/
theorem writeBuffer_readable {s : State} {x : Context} (h : BufferReadable s x) :
    writeBuffer s x = .ok (bufferBytes s x) := by
  rcases writeBuffer_cases s x with ⟨h1, -⟩ | ⟨-, h1, h2⟩
  · rw [h1, memRead_eq_map]; rfl
  · exfalso
    rcases h with h | ⟨h3, h4⟩
    · exact h1 h
    · rcases h2 with h2 | ⟨k, hk, h2⟩
      · omega
      · rw [h4 k hk] at h2; cases h2

/-- A buffer that is not readable is ACCESS_FAULT (R163). -/
theorem writeBuffer_not_readable {s : State} {x : Context} (h : ¬ BufferReadable s x) :
    writeBuffer s x = .error .accessFault := by
  rcases writeBuffer_cases s x with ⟨-, h1⟩ | ⟨h1, -⟩
  · exact absurd h1 h
  · exact h1

end Sys2Proof.Machine
end

