-- ==== Sys2Proof/Laws/PerInstr.lean ====
section
/-! SUPPORT. The family `OneWord`: the word of every command keeps `RSV` at 0, and names an engine only where
`OP` is 0x03 (30_encoding.md R70, R73). -/

namespace Sys2Proof.Laws.OneWord

/-- The word of `i` has no reserved bit set, and `ENG` is 0 unless `OP` is 0x03. -/
def Statement (i : Instr) : Prop :=
  rsvField (encodeWord i) = 0 ∧ (opField (encodeWord i) = 0x03 ∨ engField (encodeWord i) = 0)

theorem new (c : Nat) : Statement (.new c) := by simp only [Statement, encodeWord]; decide
theorem reset (c : Nat) : Statement (.reset c) := by simp only [Statement, encodeWord]; decide
theorem write (c : Nat) : Statement (.write c) := by simp only [Statement, encodeWord]; decide
theorem writeT (c : Nat) : Statement (.writeT c) := by simp only [Statement, encodeWord]; decide
theorem writeF (c : Nat) : Statement (.writeF c) := by simp only [Statement, encodeWord]; decide
theorem sum (c : Nat) : Statement (.sum c) := by simp only [Statement, encodeWord]; decide
theorem select (c : Nat) : Statement (.select c) := by simp only [Statement, encodeWord]; decide
theorem drop (c : Nat) : Statement (.drop c) := by simp only [Statement, encodeWord]; decide

end Sys2Proof.Laws.OneWord
end

