-- ==== Sys2Proof/Laws/Step.lean ====
section
/-! SUPPORT. Everything a step can do, said once: which accesses the window admits, what an admitted access of
each kind does, and the cases of `step`. -/

namespace Sys2Proof.Machine

/-- A present context has an index below the number of contexts. -/
theorem lt_length_of_ctx {s : State} {c : Nat} {x : Context} (h : s.ctxs[c]? = some x) : c < s.ctxs.length :=
  (List.getElem?_eq_some_iff.mp h).1

/-- `checkAccess` admits exactly the accesses of R58 and refuses the others by name. -/
theorem checkAccess_cases (s : State) (addr width : Nat) :
    (AdmittedAccess s addr width ∧ checkAccess s addr width = .ok (addr - s.platform.mmioBase)) ∨
    (¬ AdmittedAccess s addr width ∧ ∃ e, checkAccess s addr width = .error e ∧
      (e = .accessWidth ∨ e = .accessOutsideWindow ∨ e = .accessMisaligned)) := by
  unfold checkAccess AdmittedAccess
  split
  · exact .inr ⟨by tauto, _, rfl, .inl rfl⟩
  split
  · exact .inr ⟨by omega, _, rfl, .inr (.inl rfl)⟩
  split
  · exact .inr ⟨by tauto, _, rfl, .inr (.inr rfl)⟩
  · exact .inl ⟨by omega, rfl⟩

/-- An aligned 8-byte access inside the window is admitted. -/
theorem checkAccess_window {s : State} {off : Nat} (h : off < 0x2000) (h8 : off % 8 = 0) :
    checkAccess s (s.platform.mmioBase + off) 8 = .ok off := by
  simp [checkAccess, Config.windowSize, h, h8]

/-- A step whose next action is an admitted store. -/
theorem step_storesNext {s : State} {off : Nat} {w : Word} {rest : List HostAction} (h : StoresNext s off w rest)
    (ho : off < 0x2000) (h8 : off % 8 = 0) :
    step s = storeReg { s with pending := rest } (windowReg s.ctxs.length off) w := by
  have hc := checkAccess_window (s := { s with pending := rest }) ho h8
  simp only [step, takeAction, show s.pending = _ from h, performAction, wordBytes_length]
  rw [show s.platform.mmioBase + off = ({ s with pending := rest } : State).platform.mmioBase + off from rfl, hc]
  simp

/-- A step whose next action is an admitted load. -/
theorem step_loadsNext {s : State} {off : Nat} {rest : List HostAction} (h : LoadsNext s off rest)
    (ho : off < 0x2000) (h8 : off % 8 = 0) :
    step s = .next { s with
      pending := rest
      reads := wordBytes (loadReg { s with pending := rest } (windowReg s.ctxs.length off)) :: s.reads } := by
  have hc := checkAccess_window (s := { s with pending := rest }) ho h8
  simp only [step, takeAction, show s.pending = _ from h, performAction]
  rw [show s.platform.mmioBase + off = ({ s with pending := rest } : State).platform.mmioBase + off from rfl, hc]

/-- Only CMD of a present context is the window register `cmd c`. -/
theorem windowReg_eq_cmd {n off c : Nat} (h : windowReg n off = .cmd c) : off = ctxOffset c ∧ c < n := by
  unfold windowReg at h
  simp only [] at h
  repeat' split at h
  all_goals first
    | cases h
      done
    | (injection h; simp only [ctxOffset]; omega)

/-- Only ARG0 of a present context is the window register `arg0 c`. -/
theorem windowReg_eq_arg0 {n off c : Nat} (h : windowReg n off = .arg0 c) : off = ctxOffset c + 0x08 ∧ c < n := by
  unfold windowReg at h
  simp only [] at h
  repeat' split at h
  all_goals first
    | cases h
      done
    | (injection h; simp only [ctxOffset]; omega)

/-- Only ARG1 of a present context is the window register `arg1 c`. -/
theorem windowReg_eq_arg1 {n off c : Nat} (h : windowReg n off = .arg1 c) : off = ctxOffset c + 0x10 ∧ c < n := by
  unfold windowReg at h
  simp only [] at h
  repeat' split at h
  all_goals first
    | cases h
      done
    | (injection h; simp only [ctxOffset]; omega)

/-- An illegal word on a present context (R75). -/
theorem storeCmd_error {s : State} {c : Nat} {w : Word} {e : DecodeError} {x : Context} (hx : s.ctxs[c]? = some x)
    (h : decode c w = .error e) : storeCmd s c w = .next (failCommand s c x .illegalCommand) := by
  unfold storeCmd
  rw [h]
  exact runCommand_error hx rfl

/-- Everything a store to CMD can do. -/
theorem storeCmd_cases {s t : State} {c : Nat} {w : Word} (h : storeCmd s c w = .next t) :
    (∃ i, decode c w = .ok i ∧ exec i s = .next t) ∨ (s.ctxs[c]? = none ∧ t = s) ∨
    ∃ x, s.ctxs[c]? = some x ∧ t = failCommand s c x .illegalCommand := by
  unfold storeCmd at h
  cases hd : decode c w with
  | ok i =>
    rw [hd] at h
    exact .inl ⟨i, rfl, h⟩
  | error e =>
    rw [hd] at h
    rcases runCommand_cases s c (fun _ => .error .illegalCommand) with ⟨h1, h2⟩ | ⟨x, hx, ⟨e, he, -⟩ | ⟨code, he, h2⟩⟩
    · rw [h2] at h; cases h; exact .inr (.inl ⟨h1, rfl⟩)
    · cases he
    · cases he; rw [h2] at h; cases h; exact .inr (.inr ⟨x, hx, rfl⟩)

/-- Everything a store to a window register can do. -/
theorem storeReg_cases {s t : State} {r : WindowReg} {w : Word} (h : storeReg s r w = .next t) :
    (∃ c, r = .cmd c ∧ storeCmd s c w = .next t) ∨
    (r = .config ∧ t = { s with forceTable := w.getLsbD 0 }) ∨
    (∃ c, r = .arg0 c ∧ t = storeField s c fun x => { x with arg0 := w }) ∨
    (∃ c, r = .arg1 c ∧ t = storeField s c fun x => { x with arg1 := w }) ∨
    t = s := by
  cases r with
  | cmd c => exact .inl ⟨c, rfl, h⟩
  | config => exact .inr (.inl ⟨rfl, (Host.Outcome.next.inj h).symm⟩)
  | arg0 c => exact .inr (.inr (.inl ⟨c, rfl, (Host.Outcome.next.inj h).symm⟩))
  | arg1 c => exact .inr (.inr (.inr (.inl ⟨c, rfl, (Host.Outcome.next.inj h).symm⟩)))
  | caps | dispatch | nctx | result | status | reserved =>
    exact .inr (.inr (.inr (.inr (Host.Outcome.next.inj h).symm)))

/-- A store to a field of a present context. -/
theorem storeField_eq {s : State} {c : Nat} {x : Context} (f : Context → Context) (h : s.ctxs[c]? = some x) :
    storeField s c f = { s with ctxs := s.ctxs.set c (f x) } := by
  unfold storeField State.setCtx
  rw [h]

/-- What a store to a field of a context leaves alone. -/
theorem storeField_frame (s : State) (c : Nat) (f : Context → Context) :
    (storeField s c f).dmem = s.dmem ∧ (storeField s c f).caps = s.caps ∧
    (storeField s c f).dispatch = s.dispatch ∧ (storeField s c f).ctxs.length = s.ctxs.length ∧
    ∀ c', c' ≠ c → (storeField s c f).ctxs[c']? = s.ctxs[c']? := by
  unfold storeField
  split
  · exact ⟨rfl, rfl, rfl, by simp, fun c' h => by simp [h.symm]⟩
  · exact ⟨rfl, rfl, rfl, rfl, fun _ _ => rfl⟩

/-- Everything a host's store can do. -/
theorem performStore_cases {s t : State} {addr : Nat} {data : List Byte}
    (h : performAction s (.store addr data) = .next t) :
    AdmittedAccess s addr data.length ∧
      storeReg s (windowReg s.ctxs.length (addr - s.platform.mmioBase)) (le64 data 0) = .next t := by
  simp only [performAction] at h
  rcases checkAccess_cases s addr data.length with ⟨ha, hc⟩ | ⟨-, e, hc, -⟩
  · rw [hc] at h
    exact ⟨ha, h⟩
  · rw [hc] at h
    cases h

/-- Everything a host's load can do. -/
theorem performLoad_cases {s t : State} {addr width : Nat}
    (h : performAction s (.load addr width) = .next t) :
    AdmittedAccess s addr width ∧
      t = { s with reads := wordBytes (loadReg s (windowReg s.ctxs.length (addr - s.platform.mmioBase))) :: s.reads } := by
  simp only [performAction] at h
  rcases checkAccess_cases s addr width with ⟨ha, hc⟩ | ⟨-, e, hc, -⟩
  · rw [hc] at h
    exact ⟨ha, (Host.Outcome.next.inj h).symm⟩
  · rw [hc] at h
    cases h

/-- Everything a host's data-memory store can do. -/
theorem performSetMem_cases {s t : State} {a : Nat} {v : Byte}
    (h : performAction s (.setMem a v) = .next t) :
    a < 2 ^ s.platform.aw ∧ t = { s with dmem := writeByte s.dmem a v } := by
  simp only [performAction] at h
  split at h
  · rename_i ha
    exact ⟨ha, (Host.Outcome.next.inj h).symm⟩
  · cases h

/-- Everything a step that answers a next state can do, the head of the queue named in each case. -/
theorem step_cases {s t : State} (h : step s = .next t) :
    (s.pending = [] ∧ t = s) ∨
    (∃ addr data rest, s.pending = .store addr data :: rest ∧ AdmittedAccess s addr data.length ∧
      storeReg { s with pending := rest } (windowReg s.ctxs.length (addr - s.platform.mmioBase)) (le64 data 0)
        = .next t) ∨
    (∃ addr width rest v, s.pending = .load addr width :: rest ∧ AdmittedAccess s addr width ∧
      t = { s with pending := rest, reads := v :: s.reads }) ∨
    (∃ a v rest, s.pending = .setMem a v :: rest ∧ a < 2 ^ s.platform.aw ∧
      t = { s with pending := rest, dmem := writeByte s.dmem a v }) ∨
    (∃ rest, s.pending = .blockReset :: rest ∧ t = blockReset { s with pending := rest }) ∨
    (∃ v rest, s.pending = .driveCaps v :: rest ∧ t = { s with pending := rest, capsIn := v }) := by
  unfold step takeAction at h
  split at h
  · rename_i hp
    exact .inl ⟨hp, (Host.Outcome.next.inj h).symm⟩
  rename_i a rest hp
  cases a with
  | store addr data => exact .inr (.inl ⟨addr, data, rest, hp, performStore_cases h⟩)
  | load addr width =>
    have h' := performLoad_cases h
    exact .inr (.inr (.inl ⟨addr, width, rest, _, hp, h'.1, h'.2⟩))
  | setMem a v => exact .inr (.inr (.inr (.inl ⟨a, v, rest, hp, performSetMem_cases h⟩)))
  | blockReset => exact .inr (.inr (.inr (.inr (.inl ⟨rest, hp, (Host.Outcome.next.inj h).symm⟩))))
  | driveCaps v => exact .inr (.inr (.inr (.inr (.inr ⟨v, rest, hp, (Host.Outcome.next.inj h).symm⟩))))

end Sys2Proof.Machine
end

