-- ==== Sys2Proof/Tests/Slice0.lean ====
section
/-! SUPPORT. Tests of the model against words and values the spec writes out, and one witness for the hypotheses of
every statement that has any. -/

open Sys2Proof Sys2Proof.Machine

namespace Sys2Proof.Tests

/-! ## Small states -/

/-- A bound context whose buffer is the `n` bytes from 0x1000. -/
def ctx (eng : Engine) (n : Word) : Context :=
  { Context.reset with bound := true, eng := some eng, arg0 := 0x1000, arg1 := n }

/-- The platform of 95_test_vectors.md section 3, with the window at 0x40000000. -/
def platform : Platform :=
  { aw := 64, admitted := [{ base := 0x1000, size := 0x1000 }], mmioBase := 0x40000000 }

/-- A block that has sampled `v`, with context 0 holding `x`, context 1 as reset, data memory `m` and queue `q`. -/
def block (v : BitVec 3) (x : Context) (m : List Host.Cell) (q : List HostAction) : State :=
  { State.powerOn platform 2 v with ctxs := [x, Context.reset], dmem := m, pending := q }

/-- "hello world!" at 0x1000. -/
def hello : List Host.Cell :=
  [(0x1000, 0x68), (0x1001, 0x65), (0x1002, 0x6C), (0x1003, 0x6C), (0x1004, 0x6F), (0x1005, 0x20),
    (0x1006, 0x77), (0x1007, 0x6F), (0x1008, 0x72), (0x1009, 0x6C), (0x100A, 0x64), (0x100B, 0x21)]

/-- The bytes `i & 0xFF` for i = 0 to n - 1. -/
def counting (n : Nat) : List Byte :=
  (List.range n).map fun i => BitVec.ofNat 8 i

/-- A host store of `w` at window offset `off`. -/
def st (off : Nat) (w : Word) : HostAction :=
  .store (0x40000000 + off) (wordBytes w)

/-- A host load of the register at window offset `off`. -/
def ld (off : Nat) : HostAction :=
  .load (0x40000000 + off) 8

/-- One field of context 0 of the state a step answers. -/
def after {α : Type} (o : Host.Outcome State Fault Refusal) (f : Context → α) : Option α :=
  match o with
  | .next t => (t.ctxs[0]?).map f
  | _ => none

/-- One register of the state a step answers. -/
def afterState {α : Type} (o : Host.Outcome State Fault Refusal) (f : State → α) : Option α :=
  match o with
  | .next t => some (f t)
  | _ => none

/-! ## Well-formedness (00_scope.md R5: at most 64 contexts) -/

theorem test_wellFormed_last_context : (Instr.new 63).wellFormed = true := by decide
theorem test_wellFormed_refuses_context_64 :
    [Instr.new 64, .reset 64, .write 64, .writeT 64, .writeF 64, .sum 64, .select 64, .drop 64].all
      (fun i => i.wellFormed = false) = true := by decide

/-! ## Decoding: RSV ++ ENG ++ OP, bit by bit from 30_encoding.md R70 to R74 -/

theorem test_decode_new : decode 5 (0#54 ++ 0b00#2 ++ 0b00000001#8) = .ok (.new 5) := by decide
theorem test_decode_reset : decode 5 (0#54 ++ 0b00#2 ++ 0b00000010#8) = .ok (.reset 5) := by decide
theorem test_decode_write : decode 5 (0#54 ++ 0b00#2 ++ 0b00000011#8) = .ok (.write 5) := by decide
theorem test_decode_writeT : decode 5 (0#54 ++ 0b01#2 ++ 0b00000011#8) = .ok (.writeT 5) := by decide
theorem test_decode_writeF : decode 5 (0#54 ++ 0b10#2 ++ 0b00000011#8) = .ok (.writeF 5) := by decide
theorem test_decode_sum : decode 5 (0#54 ++ 0b00#2 ++ 0b00000100#8) = .ok (.sum 5) := by decide
theorem test_decode_select : decode 5 (0#54 ++ 0b00#2 ++ 0b00000101#8) = .ok (.select 5) := by decide
theorem test_decode_drop : decode 5 (0#54 ++ 0b00#2 ++ 0b00000110#8) = .ok (.drop 5) := by decide
theorem test_decode_illegal :
    decode 0 0x303 = .error .reservedEngine ∧ decode 0 0x104 = .error .engineNotAllowed ∧
    decode 0 0x403 = .error .reservedBits ∧ decode 0 0x8000000000000001 = .error .reservedBits ∧
    decode 0 0x0 = .error .reservedOp ∧ decode 0 0x7 = .error .reservedOp ∧ decode 0 0xFF = .error .reservedOp := by
  decide
theorem test_decodeBytes_little_endian :
    decodeBytes 2 [0x03, 0x02, 0, 0, 0, 0, 0, 0] = .ok (.writeF 2) ∧
    decodeBytes 2 [0x03, 0x02] = .error .notOneWord := by decide
theorem test_decodeTableWord :
    decodeTableWord 64 0x1 = some (.new 0) ∧ decodeTableWord 64 0x203 = some (.writeF 0) ∧
    decodeTableWord 64 0x7 = none := by decide

/-! ## One step -/

theorem test_fetch_word_runs :
    afterState (step (State.reset.withFetchWord 64 0x1)) id = afterState (exec (.new 0) State.reset) id ∧
    afterState (step (State.reset.withFetchWord 64 0x5)) id = afterState (exec (.select 0) State.reset) id := by
  decide +kernel

/-- R161's example. -/
theorem test_new_example :
    let o := step (block 0b111 Context.reset [] [st 0x100 0x1])
    after o Context.crc = some 0xFFFFFFFFFFFFFFFF ∧ after o Context.statusWord = some 0x30000 ∧
      afterState o State.dispatchWord = some 1 := by decide

/-- R154's truth table: an override leaves the latch alone. -/
theorem test_new_override :
    let o := step { block 0b111 Context.reset [] [st 0x100 0x1] with forceTable := true }
    after o Context.statusWord = some 0x50000 ∧ afterState o State.dispatchWord = some 0 := by decide

/-- R162's example. -/
theorem test_reset_example :
    after (step (block 0b111 { ctx .fold 6 with crc := 0xE710FA45FB504FF5 } [] [st 0x100 0x2])) Context.crc
      = some 0xFFFFFFFFFFFFFFFF := by decide

/-- R164's example, for both bindings. -/
theorem test_write_example :
    after (step (block 0b111 (ctx .fold 6) hello [st 0x100 0x3])) Context.crc = some 0xE710FA45FB504FF5 ∧
    after (step (block 0b011 (ctx .table 6) hello [st 0x100 0x3])) Context.crc = some 0xE710FA45FB504FF5 := by
  decide +kernel

/-- R163: a buffer that ends past the admitted bytes. -/
theorem test_write_access_fault :
    after (step (block 0b111 { ctx .fold 6 with arg0 := 0x1FFB } hello [st 0x100 0x3])) Context.statusWord
      = some 0x30104 := by decide +kernel

/-- R165's example. -/
theorem test_writeT_example : tableUpdate crcInit (counting 17) = 0x0BCAE4710622213C := by decide +kernel

/-- R109's value, on a context bound to FOLD. -/
theorem test_writeT_on_fold :
    after (step (block 0b111 (ctx .fold 12) hello [st 0x100 0x103])) Context.crc = some 0x7B7C3F05CD9F829E := by
  decide +kernel

/-- R166's example. -/
theorem test_writeF_example : foldUpdate crcInit (counting 129) = 0x11BC718A31C149CF := by decide +kernel

/-- R166 and R202: without the capability even an empty buffer fails with code 3. -/
theorem test_writeF_unavailable :
    after (step (block 0b011 (ctx .table 0) hello [st 0x100 0x203])) Context.statusWord = some 0x50103 := by decide

/-- R167's example. -/
theorem test_sum_example :
    after (step (block 0b111 { ctx .fold 6 with crc := 0x7B7C3F05CD9F829E } [] [st 0x100 0x4])) Context.result
      = some 0x8483C0FA32607D61 := by decide

/-- R204's example: SUM on an unbound context. -/
theorem test_sum_unbound :
    after (step (block 0b111 Context.reset [] [st 0x100 0x4])) Context.statusWord = some 0x102 := by decide

/-- R204's example: NEW after the failed SUM keeps STICKY. -/
theorem test_new_keeps_sticky :
    after (step (block 0b111 { Context.reset with code := .unbound, sticky := true } [] [st 0x100 0x1]))
      Context.statusWord = some 0x30100 := by decide

/-- R168's example. -/
theorem test_select_example :
    let o := step (block 0b111 Context.reset [] [st 0x100 0x5])
    after o Context.result = some 1 ∧ afterState o State.dispatchWord = some 1 := by decide

/-- R151: a latch at TABLE is not probed again. -/
theorem test_select_latched :
    after (step { block 0b111 Context.reset [] [st 0x100 0x5] with dispatch := some .table }) Context.result
      = some 2 := by decide

/-- R169's example. -/
theorem test_drop_example :
    after (step (block 0b111 (ctx .fold 6) [] [st 0x100 0x6])) Context.statusWord = some 0 := by decide

/-- R75: an illegal word. -/
theorem test_illegal_word :
    after (step (block 0b111 (ctx .fold 6) [] [st 0x100 0x7])) Context.statusWord = some 0x30101 := by decide

/-- R103's example. -/
theorem test_table_entry : tbl 0 0x81 = 0x7A421B2BD420502D := by decide +kernel

/-- R60, R57: ARG0 of context 1 is at 0x148, and a load of CMD returns 0. -/
theorem test_window_map :
    afterState (step (block 0b111 Context.reset [] [st 0x148 0x1122334455667788]))
      (fun t => (t.ctxs[1]?).map Context.arg0) = some (some 0x1122334455667788) ∧
    afterState (step (block 0b111 (ctx .fold 6) [] [ld 0x108])) State.reads
      = some [[0x00, 0x10, 0, 0, 0, 0, 0, 0]] ∧
    afterState (step (block 0b111 (ctx .fold 6) [] [ld 0x100])) State.reads = some [[0, 0, 0, 0, 0, 0, 0, 0]] := by
  decide

/-- R214: the three accesses that are refused. -/
theorem test_refused_accesses :
    step (block 0b111 Context.reset [] [.load 0x40000000 4]) = .refused .accessWidth ∧
    step (block 0b111 Context.reset [] [.load 0x40002000 8]) = .refused .accessOutsideWindow ∧
    step (block 0b111 Context.reset [] [.load 0x40000004 8]) = .refused .accessMisaligned := ⟨rfl, rfl, rfl⟩

/-- R34: a host's data store, and one past `2^AW`. -/
theorem test_host_data_store :
    afterState (step (block 0b111 Context.reset hello [.setMem 0x1001 0])) (fun t => readByte t.dmem 0x1001)
      = some 0 ∧
    step (block 0b111 Context.reset hello [.setMem (2 ^ 64) 1]) = .fault .noSuchDataAddress :=
  ⟨by decide, rfl⟩

/-- R222: the input is sampled at block reset only. -/
theorem test_caps_sampled :
    afterState (step (block 0b111 Context.reset [] [.driveCaps 0b011])) State.capsWord = some 7 ∧
    afterState (step { block 0b111 (ctx .fold 6) [] [.blockReset] with capsIn := 0b011 }) State.capsWord = some 3 := by
  decide

/-! ## Witnesses: every statement's hypotheses are met, each clause at a boundary of its range -/

/-- A block whose queue is one store. -/
def storing (off : Nat) (w : Word) : State := block 0b111 (ctx .fold 6) hello [st off w]

/-- A block whose queue is one load. -/
def loading (off : Nat) : State := block 0b111 (ctx .fold 6) hello [ld off]

/-- A block with 64 contexts. -/
def full (q : List HostAction) : State := { State.powerOn platform 64 0b111 with pending := q }

theorem witness_DecodeIsTheInverseOfEncode :
    (Instr.writeF 63).wellFormed = true ∧ encode (.writeF 63) = (0x10C0, 0x203) ∧
    decodeStore 0x10C0 0x203 = some (.ok (.writeF 63)) := by decide

theorem witness_IllegalWordOnlyReports :
    rsvField 0x401 ≠ 0 ∧ (opField 0x104 ≠ 0x03 ∧ engField 0x104 ≠ 0) ∧
    StoresNext (full [st 0x10C0 0x7]) (ctxOffset 63) 0x7 [] ∧ (full [st 0x10C0 0x7]).ctxs[63]? = some Context.reset ∧
    decode 63 0x7 = .error .reservedOp := ⟨by decide, by decide, rfl, rfl, rfl⟩

theorem witness_StepRunsTheDecodedCommand :
    (full [st 0x10C0 0x5]).pending = .store (platform.mmioBase + ctxOffset 63) (wordBytes 0x5) :: [] ∧
    63 < (full [st 0x10C0 0x5]).ctxs.length ∧ decodeBytes 63 (wordBytes 0x5) = .ok (.select 63) := by decide

theorem witness_IdleBlockHoldsItsState : State.reset.pending = [] := rfl

theorem witness_OnlyUnadmittedAccessesAreRefused :
    (storing 0x1FF8 1).pending = .store 0x40001FF8 (wordBytes 1) :: [] ∧
    AdmittedAccess (storing 0x1FF8 1) 0x40001FF8 (wordBytes 1).length ∧
    ¬ AdmittedAccess (storing 0x2000 1) 0x40002000 (wordBytes 1).length ∧
    (loading 0).pending = .load 0x40000000 8 :: [] ∧ AdmittedAccess (loading 0) 0x40000000 8 ∧
    ¬ AdmittedAccess (loading 4) 0x40000004 8 ∧ ¬ AdmittedAccess (loading 0) 0x40000000 4 := by
  refine ⟨rfl, ?_, ?_, rfl, ?_, ?_, ?_⟩ <;> unfold AdmittedAccess <;> decide

theorem witness_LoadsOfGlobalRegisters :
    (full [ld 0]).ctxs.length ≤ 64 ∧ LoadsNext (full [ld 0x000]) 0x000 [] ∧ LoadsNext (full [ld 0x008]) 0x008 [] ∧
    LoadsNext (full [ld 0x010]) 0x010 [] ∧ LoadsNext (full [ld 0x018]) 0x018 [] :=
  ⟨by decide, rfl, rfl, rfl, rfl⟩

theorem witness_LoadsOfContextRegisters :
    (full [ld 0x10C8]).ctxs[63]? = some Context.reset ∧ LoadsNext (full [ld 0x10C8]) (ctxOffset 63 + 0x08) [] ∧
    LoadsNext (full [ld 0x10D0]) (ctxOffset 63 + 0x10) [] ∧ LoadsNext (full [ld 0x10D8]) (ctxOffset 63 + 0x18) [] ∧
    LoadsNext (full [ld 0x10E0]) (ctxOffset 63 + 0x20) [] := ⟨rfl, rfl, rfl, rfl, rfl⟩

/-- A reserved global offset, the first absent context, CMD and the last reserved offset of a context, for loads. -/
theorem witness_ReservedAndReadOnlyLocations_loads :
    LoadsNext (loading 0xF8) 0xF8 [] ∧ LoadsNext (loading 0x180) 0x180 [] ∧
    ctxOffset (loading 0x180).ctxs.length ≤ 0x180 ∧ LoadsNext (loading 0x1FF8) 0x1FF8 [] ∧
    (1 < (loading 0x140).ctxs.length ∧ 0x140 = ctxOffset 1 ∧ LoadsNext (loading 0x140) 0x140 []) ∧
    (ctxOffset 0 + 0x28 ≤ 0x138 ∧ 0x138 < ctxOffset 0 + 0x40 ∧ LoadsNext (loading 0x138) 0x138 []) :=
  ⟨rfl, rfl, by decide, rfl, ⟨by decide, rfl, rfl⟩, by decide, by decide, rfl⟩

theorem witness_ReservedAndReadOnlyLocations_stores :
    StoresNext (storing 0x20 1) 0x20 1 [] ∧ StoresNext (storing 0x180 1) 0x180 1 [] ∧
    StoresNext (storing 0x000 1) 0x000 1 [] ∧ StoresNext (storing 0x010 1) 0x010 1 [] ∧
    StoresNext (storing 0x018 1) 0x018 1 [] ∧ StoresNext (storing 0x118 1) (ctxOffset 0 + 0x18) 1 [] ∧
    StoresNext (storing 0x160 1) (ctxOffset 1 + 0x20) 1 [] ∧ StoresNext (storing 0x128 1) (ctxOffset 0 + 0x28) 1 [] ∧
    StoresNext (storing 0x008 1) 0x008 1 [] := ⟨rfl, rfl, rfl, rfl, rfl, rfl, rfl, rfl, rfl⟩

theorem witness_SideEffectsOfWindowAccesses :
    (∃ t, step (loading 0x120) = .next t) ∧ (loading 0x120).pending = .load 0x40000120 8 :: [] ∧
    (storing 0x108 1).ctxs[0]? = some (ctx .fold 6) ∧ StoresNext (storing 0x108 1) (ctxOffset 0 + 0x08) 1 [] ∧
    StoresNext (storing 0x110 1) (ctxOffset 0 + 0x10) 1 [] ∧ StoresNext (storing 0x008 1) 0x008 1 [] ∧
    StoresNext (storing 0x100 1) (ctxOffset 0) 1 [] ∧ (∃ t, step (storing 0x13F 1) = .refused t) ∧
    (∃ t, step (storing 0x138 1) = .next t) ∧ platform.mmioBase + ctxOffset 0 ≤ 0x40000138 ∧
    0x40000138 < platform.mmioBase + ctxOffset 0 + 0x40 :=
  ⟨⟨_, rfl⟩, rfl, rfl, rfl, rfl, rfl, rfl, ⟨_, rfl⟩, ⟨_, rfl⟩, by decide, by decide⟩

theorem witness_RegisterWindowIsLittleEndian :
    (block 0b111 Context.reset [] [.store 0x40001FF8 [1, 2, 3, 4, 5, 6, 7, 8]]).pending
      = .store (platform.mmioBase + 0x1FF8) [1, 2, 3, 4, 5, 6, 7, 8] :: [] ∧
    LoadsNext (loading 0x1FF8) 0x1FF8 [] := ⟨rfl, rfl⟩

theorem witness_HostDataStoreWritesOneByte :
    MemoryWf hello ∧ 2 ^ 64 - 1 < 2 ^ platform.aw ∧ 2 ^ platform.aw ≤ 2 ^ 64 ∧
    (block 0b111 Context.reset hello [.setMem (2 ^ 64 - 1) 1]).pending = .setMem (2 ^ 64 - 1) 1 :: [] := by
  refine ⟨by decide +kernel, by decide, by decide, rfl⟩

/-- A block about to be reset. -/
def resetting : State := { block 0b111 (ctx .fold 6) hello [.blockReset] with capsIn := 0b011 }

theorem witness_BlockResetSetsEveryRegister : resetting.pending = .blockReset :: [] := rfl

theorem witness_BlockResetLeavesWhatIsOutsideTheBlock :
    resetting.pending = .blockReset :: [] ∧ ∃ t, step resetting = .next t := ⟨rfl, ⟨_, rfl⟩⟩

theorem witness_NotResetting : NotResetting (storing 0x100 0x1) := by
  intro rest h
  cases h

theorem witness_CapabilityInputIsSampledAtReset :
    (∃ t, step (block 0b111 (ctx .fold 6) [] [.driveCaps 0]) = .next t) ∧
    NotResetting (block 0b111 (ctx .fold 6) [] [.driveCaps 0]) := ⟨⟨_, rfl⟩, fun _ h => by cases h⟩

theorem witness_InvariantHoldsAfterReset :
    platform.wf = true ∧ ({ aw := 1, admitted := [], mmioBase := 0 } : Platform).wf = true := by decide

theorem witness_EveryStepKeepsTheInvariant :
    (block 0b111 Context.reset hello [st 0x100 0x1]).Inv ∧
    ∃ t, step (block 0b111 Context.reset hello [st 0x100 0x1]) = .next t :=
  ⟨{ platform_wf := by decide, contexts := by decide, memory := by decide +kernel, memory_space := by decide +kernel,
     binding := by decide, fold_binding := by decide, latch := (fun e h => by cases h), unbound_crc := by decide,
     sticky_set := by decide }, ⟨_, rfl⟩⟩

theorem witness_ResolveAnswersTheLatchOrTheCapability :
    (State.powerOn platform 1 0b111).dispatch = none ∧ (State.powerOn platform 1 0b111).caps = 0b111#3 ∧
    (State.powerOn platform 1 0b011).caps ≠ 0b111#3 ∧
    ({ State.powerOn platform 1 0b111 with dispatch := some Engine.table } : State).dispatch = some .table := by decide

theorem witness_LatchIsWrittenOnce :
    (∃ t, step (storing 0x100 0x1) = .next t ∧ t.dispatch = some .fold) ∧ (storing 0x100 0x1).dispatch = none ∧
    NotResetting (storing 0x100 0x1) ∧
    (∃ t, step { storing 0x100 0x5 with dispatch := some .table } = .next t ∧ t.dispatch = some .table) ∧
    ∃ t, step resetting = .next t :=
  ⟨⟨_, rfl, rfl⟩, rfl, witness_NotResetting, ⟨_, rfl, rfl⟩, ⟨_, rfl⟩⟩

theorem witness_BindingAtNew :
    (storing 0x100 0x1).ctxs[0]? = some (ctx .fold 6) ∧ (storing 0x100 0x1).forceTable = false ∧
    ({ storing 0x100 0x1 with forceTable := true } : State).forceTable = true := ⟨rfl, rfl, rfl⟩

theorem witness_BindingChangesOnlyAtNewAndDrop :
    StoresNext (storing 0x008 1) 0x008 1 [] ∧ (∃ t, step (storing 0x008 1) = .next t) ∧
    (∃ t, step (storing 0x100 0x6) = .next t) ∧ NotResetting (storing 0x100 0x6) ∧
    (storing 0x100 0x6).ctxs[0]? = some (ctx .fold 6) :=
  ⟨rfl, ⟨_, rfl⟩, ⟨_, rfl⟩, (fun _ h => by cases h), rfl⟩

theorem witness_NewAndSelect_latch :
    (storing 0x100 0x1).dispatch = none ∧ (Engine.fold = .fold ↔ (storing 0x100 0x1).caps = 0b111#3) ∧
    (Engine.table = .fold ↔ (block 0b011 Context.reset [] []).caps = 0b111#3) ∧
    ({ storing 0x100 0x1 with dispatch := some Engine.table } : State).dispatch = some .table := by decide

/-- RESET, WRITE, WRITE.T, WRITE.F, SUM, DROP: a bound and an unbound context. -/
theorem witness_bound_and_unbound :
    (storing 0x100 0x2).ctxs[0]? = some (ctx .fold 6) ∧ (ctx .fold 6).bound = true ∧
    (storing 0x140 0x2).ctxs[1]? = some Context.reset ∧ Context.reset.bound = false := ⟨rfl, rfl, rfl, rfl⟩

/-- A completed command on a context whose last command failed: CODE goes back to OK. -/
theorem witness_code_written :
    let s := block 0b111 { ctx .fold 6 with code := .accessFault, sticky := true } [] []
    s.ctxs[(Instr.sum 0).ctx]? = some { ctx .fold 6 with code := .accessFault, sticky := true } ∧
    after (exec (.sum 0) s) Context.code = some .ok := ⟨rfl, by decide⟩

/-- The buffer clauses: empty, the last admitted byte, one byte too far, past `2^AW`. -/
theorem witness_BufferOperandOfTheWrites :
    (ctx .fold 0).arg1 = 0 ∧ BufferReadable (storing 0x100 0x3) (ctx .fold 0x1000#64) ∧
    (admits platform 0x2000 = false ∧ 0x1000 < (ctx .fold 0x1001#64).arg1.toNat) ∧
    2 ^ platform.aw < (0xFFFFFFFFFFFFFFFF#64).toNat + (2#64).toNat := by
  refine ⟨rfl, .inr ⟨by decide, ?_⟩, by decide, by decide⟩
  intro k hk
  have hk : k < 0x1000 := hk
  show admits platform (0x1000 + k) = true
  simp [admits, platform, AddrRange.holds]
  omega

theorem witness_writes :
    (storing 0x100 0x3).ctxs[0]? = some (ctx .fold 6) ∧ (ctx .fold 6).bound = true ∧
    BufferReadable (storing 0x100 0x3) (ctx .fold 6) ∧ (ctx .fold 6).eng = some .fold ∧
    (ctx .table 6).eng ≠ some .fold ∧ BufferReadable (storing 0x100 0x3) (ctx .table 6) ∧
    ¬ BufferReadable (storing 0x100 0x3) (ctx .fold 0x1001#64) ∧ (storing 0x100 0x3).caps = 0b111#3 ∧
    (block 0b011 (ctx .table 6) hello []).caps ≠ 0b111#3 := by
  refine ⟨rfl, rfl, ?_, rfl, by decide, ?_, ?_, rfl, by decide⟩
  · exact .inr ⟨by decide +kernel, by decide +kernel⟩
  · exact .inr ⟨by decide +kernel, by decide +kernel⟩
  · rintro (h | ⟨-, h⟩)
    · exact absurd h (by decide)
    · exact absurd (h 0x1000 (by decide)) (by decide)

theorem witness_ZeroLengthWriteIsANoOp :
    (block 0b111 (ctx .fold 0) [] []).ctxs[0]? = some (ctx .fold 0) ∧ (ctx .fold 0).bound = true ∧
    (ctx .fold 0).arg1 = 0 := ⟨rfl, rfl, rfl⟩

theorem witness_FailedCommandChangesOnlyStatus :
    (∃ t, exec (.sum 1) (storing 0x140 0x4) = .next t ∧ (t.ctxs[1]?).map Context.code = some .unbound) ∧
    (∃ t, storeCmd (storing 0x140 0x7) 1 0x7 = .next t ∧ (t.ctxs[1]?).map Context.code = some .illegalCommand) ∧
    (storing 0x140 0x4).ctxs[1]? = some Context.reset := ⟨⟨_, rfl, rfl⟩, ⟨_, rfl, rfl⟩, rfl⟩

theorem witness_EveryCommandReportsAndStickyStays :
    let s := block 0b111 { ctx .fold 6 with sticky := true } [] [st 0x100 0x6]
    (∃ t, step s = .next t) ∧ NotResetting s ∧ s.ctxs[0]? = some { ctx .fold 6 with sticky := true } ∧
    StoresNext (storing 0x120 1) (ctxOffset 0 + 0x20) 1 [] :=
  ⟨⟨_, rfl⟩, (fun _ h => by cases h), rfl, rfl⟩

theorem witness_CommandTouchesOnlyItsContext :
    let s := storing 0x100 0x4
    (∃ t, exec (.sum 0) s = .next t) ∧ (∃ t, exec (.sum 0) { s with pending := [], reads := [[1]] } = .next t) ∧
    s.ctxs[0]? = ({ s with pending := [], reads := [[1]] } : State).ctxs[0]? := ⟨⟨_, rfl⟩, ⟨_, rfl⟩, rfl⟩

theorem witness_OnlyWritesReadDataMemory :
    (∃ t, step (storing 0x100 0x4) = .next t) ∧
    (∀ a v rest, (storing 0x100 0x4).pending ≠ .setMem a v :: rest) ∧
    (Instr.sum 0 ≠ .write 0 ∧ Instr.sum 0 ≠ .writeT 0 ∧ Instr.sum 0 ≠ .writeF 0) ∧
    ∃ t, exec (.sum 0) (storing 0x100 0x4) = .next t :=
  ⟨⟨_, rfl⟩, (fun _ _ _ h => by cases h), by decide, ⟨_, rfl⟩⟩

theorem witness_TableStoreIsLinearOverItsBasis : 15 < 16 ∧ 7 < 8 := by decide

theorem witness_SliceStepIsSixteenByteSteps : (counting 16).length = 16 := by decide

open Polynomial in
/-- The readings of R9 exist for every register, block, message and for the generator. -/
theorem witness_polynomial_readings (r : Word) (w : Block) (d : List Byte) :
    ∃ pr pw pd pg : (ZMod 2)[X], ReadsWord r pr ∧ ReadsBlock w pw ∧ ReadsMessage d pd ∧ ReadsGenerator pg :=
  ⟨_, _, _, _, rfl, rfl, rfl, rfl⟩

theorem witness_FoldAdvancesByItsDistance : 16 ∈ foldDistances ∧ 128 ∈ foldDistances := by decide

theorem witness_ShortFoldIsTableUpdate : (counting 15).length < 16 ∧ ([] : List Byte).length = 0 := by decide

theorem witness_SplitWritesEqualOneWrite :
    (storing 0x100 0x3).platform.wf = true ∧ (storing 0x100 0x3).ctxs[0]? = some (ctx .fold 6) ∧
    BufferReadable (storing 0x100 0x3) (ctx .fold 6) ∧ (ctx .fold 6).arg1.toNat = 2 + 4 :=
  ⟨by decide, rfl, witness_writes.2.2.1, rfl⟩

theorem witness_FreshAndResetDigestsSumAlike :
    (storing 0x100 0x3).ctxs[0]? = some (ctx .fold 6) ∧ (ctx .fold 6).bound = true ∧
    BufferReadable (storing 0x100 0x3) (ctx .fold 6) := ⟨rfl, rfl, witness_writes.2.2.1⟩

end Sys2Proof.Tests
end

