-- ==== Sys2Proof/Proofs/Remainder.lean ====
section
/-! PROOFS. The byte-serial CRC as a remainder modulo `P(x)` (00_scope.md R9): registers are the polynomials of
degree below 64, bit steps and byte steps are congruences modulo `P(x)`, and a remainder is unique. -/

namespace Sys2Proof.Machine

open Polynomial

/-! ## Registers are the polynomials of degree below 64 -/

/-- The coefficient of `poly64(v)` at `x^(63 - j)` is bit `j`. -/
theorem readsWord_coeff {v : Word} {p : (ZMod 2)[X]} (h : ReadsWord v p) {j : Nat} (hj : j < 64) :
    p.coeff (63 - j) = if v.getLsbD j then 1 else 0 := by
  rw [show p = _ from h, finsetSum_coeff, Finset.sum_eq_single_of_mem j (Finset.mem_range.mpr hj)]
  · split <;> simp
  · intro i hi hij
    have hne : 63 - j ≠ 63 - i := by have := Finset.mem_range.mp hi; omega
    split <;> simp [coeff_X_pow, hne]

/-- `poly64` is injective. -/
theorem readsWord_injective {a b : Word} {p : (ZMod 2)[X]} (ha : ReadsWord a p) (hb : ReadsWord b p) : a = b := by
  apply BitVec.eq_of_getLsbD_eq
  intro j hj
  have h := (readsWord_coeff ha hj).symm.trans (readsWord_coeff hb hj)
  cases hx : a.getLsbD j <;> cases hy : b.getLsbD j <;> simp [hx, hy] at h ⊢

/-- `poly64(v)` has degree below 64. -/
theorem readsWord_degree_lt {v : Word} {p : (ZMod 2)[X]} (h : ReadsWord v p) : p.degree < (64 : Nat) := by
  rw [← mem_degreeLT, show p = _ from h]
  refine Submodule.sum_mem _ fun i _ => mem_degreeLT.mpr ?_
  split
  · rw [degree_X_pow]; exact_mod_cast (by omega : 63 - i < 64)
  · rw [degree_zero]; exact WithBot.bot_lt_coe 64

/-- `P(x)` is monic of degree 64. -/
theorem readsGenerator_monic_degree {g : (ZMod 2)[X]} (hg : ReadsGenerator g) : g.Monic ∧ g.degree = (64 : Nat) := by
  have hlt := readsWord_degree_lt (v := polyR) rfl
  rw [reads_polyR rfl hg]
  exact ⟨monic_X_pow_add hlt, by rw [degree_add_eq_left_of_degree_lt (by rwa [degree_X_pow]), degree_X_pow]⟩

/-- The register congruent to a polynomial modulo `P(x)` is its remainder. -/
theorem readsWord_eq_modByMonic {v : Word} {p f k g : (ZMod 2)[X]} (hp : ReadsWord v p) (hg : ReadsGenerator g)
    (h : f = p + g * k) : p = f %ₘ g := by
  obtain ⟨hmonic, hdegree⟩ := readsGenerator_monic_degree hg
  exact (div_modByMonic_unique k p hmonic ⟨h.symm, hdegree ▸ readsWord_degree_lt hp⟩).2.symm

/-! ## Steps of the register -/

/-- `n` bit steps multiply by `x^n` modulo `P(x)`. -/
theorem readsWord_crcBits (n : Nat) {r : Word} {p q g : (ZMod 2)[X]} (hp : ReadsWord r p)
    (hq : ReadsWord (crcBits n r) q) (hg : ReadsGenerator g) : ∃ k, p * X ^ n = q + g * k := by
  induction n generalizing r p with
  | zero => exact ⟨0, by rw [show p = q from hp.trans hq.symm]; ring⟩
  | succ n ih =>
    have hbit := readsWord_crcBit hp rfl hg
    obtain ⟨k, hk⟩ := ih rfl hq
    refine ⟨k + (if r.getLsbD 0 then 1 else 0) * X ^ n, ?_⟩
    calc p * X ^ (n + 1) = X * p * X ^ n := by ring
      _ = q + g * k + (if r.getLsbD 0 then g else 0) * X ^ n := by rw [hbit, add_mul, hk]
      _ = q + g * (k + (if r.getLsbD 0 then 1 else 0) * X ^ n) := by rw [← mul_boole]; ring

/-- The first byte of a message is its highest coefficients (R9). -/
theorem readsMessage_cons {b : Byte} {d : List Byte} {p pb pd : (ZMod 2)[X]} (h : ReadsMessage (b :: d) p)
    (hb : ReadsMessage [b] pb) (hd : ReadsMessage d pd) : p = pb * X ^ (8 * d.length) + pd := by
  unfold ReadsMessage at h hb hd
  rw [h, hb, hd, List.length_cons, Finset.sum_range_succ', add_comm]
  refine congrArg₂ (· + ·) ?_ ?_
  · simp only [List.length_singleton, Finset.sum_range_one, Finset.sum_mul]
    refine Finset.sum_congr rfl fun i hi => ?_
    have := Finset.mem_range.mp hi
    rw [ite_mul, zero_mul, ← pow_add, List.getD_cons_zero, List.getD_cons_zero,
      show 8 * (1 - 1 - 0) + 7 - i + 8 * d.length = 8 * (d.length + 1 - 1 - 0) + 7 - i by omega]
  · refine Finset.sum_congr rfl fun j _ => Finset.sum_congr rfl fun i _ => ?_
    rw [List.getD_cons_succ, show d.length + 1 - 1 - (j + 1) = d.length - 1 - j by omega]

/-- A byte in a register's low bits stands in its polynomial's top eight coefficients (R9). -/
theorem readsWord_byte {b : Byte} {p pb : (ZMod 2)[X]} (h : ReadsWord (b.setWidth 64) p)
    (hb : ReadsMessage [b] pb) : p = pb * X ^ 56 := by
  rw [show p = _ from h, show pb = _ from hb, show 64 = 8 + 56 from rfl, Finset.sum_range_add,
    Finset.sum_eq_zero (s := Finset.range 56), add_zero]
  · simp only [List.length_singleton, Finset.sum_range_one, Finset.sum_mul]
    refine Finset.sum_congr rfl fun i hi => ?_
    have hi := Finset.mem_range.mp hi
    rw [ite_mul, zero_mul, ← pow_add, BitVec.getLsbD_setWidth, List.getD_cons_zero,
      show 8 * (1 - 1 - 0) + 7 - i + 56 = 63 - i by omega]
    simp [show i < 64 by omega]
  · intro i _
    simp

/-- A byte step multiplies by `x^8` and adds the byte's polynomial times `x^64`, modulo `P(x)`. -/
theorem readsWord_byteStep {r : Word} {b : Byte} {p q pb g : (ZMod 2)[X]} (hp : ReadsWord r p)
    (hq : ReadsWord (crcBits 8 (r ^^^ b.setWidth 64)) q) (hb : ReadsMessage [b] pb) (hg : ReadsGenerator g) :
    ∃ k, p * X ^ 8 + pb * X ^ 64 = q + g * k := by
  obtain ⟨k, hk⟩ := readsWord_crcBits 8 rfl hq hg
  rw [readsWord_xor hp rfl rfl, readsWord_byte rfl hb] at hk
  exact ⟨k, by rw [← hk]; ring⟩

/-- Consuming `d` gives `poly64(r)·x^(8n) + msg(d)·x^64` modulo `P(x)`. -/
theorem readsWord_byteSerial {r : Word} {d : List Byte} {p q pd g : (ZMod 2)[X]} (hp : ReadsWord r p)
    (hq : ReadsWord (byteSerial r d) q) (hd : ReadsMessage d pd) (hg : ReadsGenerator g) :
    ∃ k, p * X ^ (8 * d.length) + pd * X ^ 64 = q + g * k := by
  induction d generalizing r p pd with
  | nil =>
    have hpd : pd = 0 := hd
    exact ⟨0, by rw [show p = q from hp.trans hq.symm, hpd]; simp⟩
  | cons b d ih =>
    rw [byteSerial_cons] at hq
    obtain ⟨k, hk⟩ := readsWord_byteStep (b := b) hp rfl rfl hg
    obtain ⟨l, hl⟩ := ih rfl hq rfl
    refine ⟨k * X ^ (8 * d.length) + l, ?_⟩
    rw [readsMessage_cons hd rfl rfl, List.length_cons]
    linear_combination X ^ (8 * d.length) * hk + hl

/-- The polynomial of the byte-serial register is the remainder of R9. -/
theorem readsWord_byteSerial_eq_modByMonic {r : Word} {d : List Byte} {p q pd g : (ZMod 2)[X]} (hp : ReadsWord r p)
    (hq : ReadsWord (byteSerial r d) q) (hd : ReadsMessage d pd) (hg : ReadsGenerator g) :
    q = (p * X ^ (8 * d.length) + pd * X ^ 64) %ₘ g := by
  obtain ⟨k, hk⟩ := readsWord_byteSerial hp hq hd hg
  exact readsWord_eq_modByMonic hq hg hk

/-- Settles O46: consuming `d` is a congruence modulo `P(x)`, remainders are unique, and `poly64` is injective. -/
theorem byteSerialIsThePolynomialRemainder : Obligations.ByteSerialIsThePolynomialRemainder := by
  intro r r' d pr pr' pd pg hr hr' hd hg
  constructor
  · intro h
    have hrem := readsWord_byteSerial_eq_modByMonic hr rfl hd hg
    exact readsWord_injective hr' (h.trans hrem.symm)
  · rintro rfl
    exact readsWord_byteSerial_eq_modByMonic hr hr' hd hg

end Sys2Proof.Machine
end

