-- ==== Sys2Proof/Proofs/WindowAccess.lean ====
section
/-! PROOFS. The register window as hosts see it (20_memory.md sections 3 to 5): byte order, the locations that read
0 or ignore stores, and what an access leaves alone; and the WRITE of length 0 (section 2). -/

namespace Sys2Proof.Machine

/-! ## Accesses at the head of the queue -/

/-- A step performs the head of the queue. -/
theorem step_pending {s : State} {a : HostAction} {rest : List HostAction} (h : s.pending = a :: rest) :
    step s = performAction { s with pending := rest } a := by
  simp only [step, takeAction, h]

/-- A step whose next action is an admitted store of any eight bytes. -/
theorem step_windowStore {s : State} {off : Nat} {data : List Byte} {rest : List HostAction}
    (h : s.pending = .store (s.platform.mmioBase + off) data :: rest) (hlen : data.length = 8)
    (ho : off < 0x2000) (h8 : off % 8 = 0) :
    step s = storeReg { s with pending := rest } (windowReg s.ctxs.length off) (le64 data 0) := by
  have hc : checkAccess { s with pending := rest } (s.platform.mmioBase + off) data.length = .ok off :=
    hlen ▸ checkAccess_window ho h8
  rw [step_pending h]
  simp only [performAction, hc]

/-- What a load returns does not depend on the queue. -/
@[simp] theorem loadReg_pending (s : State) (q : List HostAction) (r : WindowReg) :
    loadReg { s with pending := q } r = loadReg s r := by
  cases r <;> rfl

/-- A store to CONFIG writes FORCE_TABLE (R22, R61). -/
theorem step_storeConfig {s : State} {w : Word} {rest : List HostAction} (hs : StoresNext s 0x008 w rest) :
    step s = .next { s with pending := rest, forceTable := w.getLsbD 0 } := by
  rw [step_storesNext hs (by decide) (by decide)]
  rfl

/-! ## Byte order -/

/-- Bit `b` of byte `j` of a register is its bit `8j + b` (00_scope.md R7). -/
theorem getLsbD_byteOf (v : Word) (j : Nat) {b : Nat} (hb : b < 8) :
    (byteOf v j).getLsbD b = v.getLsbD (8 * j + b) := by
  simp [byteOf, hb]

/-- Eight bytes on the host bus hold the register that they read as, little-endian (R59). -/
theorem getLsbD_le64 {data : List Byte} (hlen : data.length = 8) {j b : Nat} (hj : j < 8) (hb : b < 8) :
    (le64 data 0).getLsbD (8 * j + b) = (data.getD j 0).getLsbD b := by
  rw [← getLsbD_byteOf _ j hb, byteOf_le64 data 0 j hj (by omega), Nat.zero_add]

/-- Settles O13: a store is read by `le64` and a load answers `wordBytes`, and the two are inverse. -/
theorem registerWindowIsLittleEndian : Obligations.RegisterWindowIsLittleEndian := by
  intro s off rest ho h8
  constructor
  · intro data hlen hp
    exact ⟨le64 data 0, step_windowStore hp hlen ho h8, fun j b hj hb => getLsbD_le64 hlen hj hb⟩
  · intro hl
    refine ⟨_, step_loadsNext hl ho h8, wordBytes_length _, fun j b hj hb => ?_⟩
    rw [← getLsbD_le64 (wordBytes_length _) hj hb, le64_wordBytes, loadReg_pending]

/-! ## Locations that read 0 and locations that ignore stores -/

/-- The global offsets above NCTX are reserved (R57). -/
theorem windowReg_global_reserved {n off : Nat} (hlo : 0x20 ≤ off) (hhi : off < 0x100) :
    windowReg n off = .reserved := by
  unfold windowReg
  rw [if_neg (by omega), if_neg (by omega), if_neg (by omega), if_neg (by omega), if_pos hhi]

/-- The offsets of a context's window above STATUS are reserved (R57). -/
theorem windowReg_ctx_reserved {n c off : Nat} (hc : c < n) (hlo : ctxOffset c + 0x28 ≤ off)
    (hhi : off < ctxOffset c + 0x40) : windowReg n off = .reserved := by
  obtain ⟨r, rfl⟩ := Nat.exists_eq_add_of_le (Nat.le_of_add_right_le hlo)
  rw [windowReg_ctx hc (by omega)]
  rw [if_neg (by omega), if_neg (by omega), if_neg (by omega), if_neg (by omega), if_neg (by omega)]

/-- A window register that a store leaves as it is (R60): reserved or read-only. -/
def IgnoresStores : WindowReg → Prop
  | .caps | .dispatch | .nctx | .result _ | .status _ | .reserved => True
  | .config | .cmd _ | .arg0 _ | .arg1 _ => False

/-- A store to a reserved location or a read-only register has no effect (R60). -/
theorem storeReg_of_ignoresStores (s : State) {r : WindowReg} (h : IgnoresStores r) (w : Word) :
    storeReg s r w = .next s := by
  cases r with
  | caps | dispatch | nctx | result | status | reserved => rfl
  | config | cmd | arg0 | arg1 => exact h.elim

/-- R60's locations that ignore stores, by offset. -/
theorem windowReg_ignoresStores {n off : Nat}
    (h : (0x20 ≤ off ∧ off < 0x100) ∨ ctxOffset n ≤ off ∨
      (∃ c, c < n ∧ ctxOffset c + 0x28 ≤ off ∧ off < ctxOffset c + 0x40) ∨
      off = 0x000 ∨ off = 0x010 ∨ off = 0x018 ∨
      (∃ c, c < n ∧ (off = ctxOffset c + 0x18 ∨ off = ctxOffset c + 0x20))) :
    IgnoresStores (windowReg n off) := by
  rcases h with ⟨hlo, hhi⟩ | hpast | ⟨c, hc, hlo, hhi⟩ | rfl | rfl | rfl | ⟨c, hc, rfl | rfl⟩
  · rw [windowReg_global_reserved hlo hhi]; trivial
  · rw [windowReg_past hpast]; trivial
  · rw [windowReg_ctx_reserved hc hlo hhi]; trivial
  · trivial
  · trivial
  · trivial
  · rw [windowReg_ctx hc (by decide)]; trivial
  · rw [windowReg_ctx hc (by decide)]; trivial

/-- R60's locations that read 0, by offset. -/
theorem loadReg_windowReg_eq_zero (s : State) {n off : Nat}
    (h : (0x20 ≤ off ∧ off < 0x100) ∨ ctxOffset n ≤ off ∨
      (∃ c, c < n ∧ (off = ctxOffset c ∨ (ctxOffset c + 0x28 ≤ off ∧ off < ctxOffset c + 0x40)))) :
    loadReg s (windowReg n off) = 0 := by
  rcases h with ⟨hlo, hhi⟩ | hpast | ⟨c, hc, rfl | ⟨hlo, hhi⟩⟩
  · rw [windowReg_global_reserved hlo hhi]; rfl
  · rw [windowReg_past hpast]; rfl
  · rw [windowReg_cmd hc]; rfl
  · rw [windowReg_ctx_reserved hc hlo hhi]; rfl

/-- Settles O11: the window map puts every such offset at a location whose load is 0 or whose store is ignored. -/
theorem reservedAndReadOnlyLocations : Obligations.ReservedAndReadOnlyLocations := by
  intro s off rest ho h8
  refine ⟨fun hoff hl => ?_, fun w hoff hs => ?_, fun w hoff hs => ?_⟩
  · rw [step_loadsNext hl ho h8, loadReg_windowReg_eq_zero _ hoff]
  · rw [step_storesNext hs ho h8, storeReg_of_ignoresStores _ (windowReg_ignoresStores hoff)]
  · subst hoff; exact step_storeConfig hs

/-! ## What a window store leaves alone -/

/-- A command leaves data memory and the other contexts alone (R171). -/
theorem runCommand_frame {s t : State} {c : Nat} {body : Context → Except ErrorCode Commit}
    (h : runCommand s c body = .next t) : t.dmem = s.dmem ∧ ∀ c', c' ≠ c → t.ctxs[c']? = s.ctxs[c']? := by
  rcases runCommand_cases s c body with ⟨-, he⟩ | ⟨x, -, ⟨e, -, he⟩ | ⟨code, -, he⟩⟩ <;> rw [he] at h <;> cases h
  · exact ⟨rfl, fun _ _ => rfl⟩
  · exact ⟨rfl, fun c' hc => by simp [hc.symm]⟩
  · exact ⟨rfl, fun c' hc => by simp [hc.symm]⟩

/-- A store to CMD leaves data memory and the other contexts alone. -/
theorem storeCmd_frame {s t : State} {c : Nat} {w : Word} (h : storeCmd s c w = .next t) :
    t.dmem = s.dmem ∧ ∀ c', c' ≠ c → t.ctxs[c']? = s.ctxs[c']? := by
  unfold storeCmd at h
  split at h
  · rename_i i hd
    rw [exec_eq_runCommand, decode_ctx hd] at h
    exact runCommand_frame h
  · exact runCommand_frame h

/-- A store leaves data memory alone, and every context whose CMD, ARG0 or ARG1 it does not reach. -/
theorem storeReg_frame {s t : State} {r : WindowReg} {w : Word} (h : storeReg s r w = .next t) :
    t.dmem = s.dmem ∧
    ∀ c', r ≠ .cmd c' → r ≠ .arg0 c' → r ≠ .arg1 c' → t.ctxs[c']? = s.ctxs[c']? := by
  rcases storeReg_cases h with ⟨c, rfl, hcmd⟩ | ⟨rfl, rfl⟩ | ⟨c, rfl, rfl⟩ | ⟨c, rfl, rfl⟩ | rfl
  · obtain ⟨hmem, hctxs⟩ := storeCmd_frame hcmd
    exact ⟨hmem, fun c' hr _ _ => hctxs c' fun hc => hr (by rw [hc])⟩
  · exact ⟨rfl, fun _ _ _ _ => rfl⟩
  · obtain ⟨hmem, -, -, -, hctxs⟩ := storeField_frame s c fun x => { x with arg0 := w }
    exact ⟨hmem, fun c' _ hr _ => hctxs c' fun hc => hr (by rw [hc])⟩
  · obtain ⟨hmem, -, -, -, hctxs⟩ := storeField_frame s c fun x => { x with arg1 := w }
    exact ⟨hmem, fun c' _ _ hr => hctxs c' fun hc => hr (by rw [hc])⟩
  · exact ⟨rfl, fun _ _ _ _ => rfl⟩

/-- A store inside one context's window leaves every other context alone (R61). -/
theorem storeReg_windowReg_other_ctx {s t : State} {n off c c' : Nat} {w : Word}
    (h : storeReg s (windowReg n off) w = .next t) (hlo : ctxOffset c ≤ off) (hhi : off < ctxOffset c + 0x40)
    (hc : c' ≠ c) : t.ctxs[c']? = s.ctxs[c']? := by
  have hout : ¬ (ctxOffset c' ≤ off ∧ off < ctxOffset c' + 0x40) := by simp only [ctxOffset] at *; omega
  refine (storeReg_frame h).2 c' (fun hr => hout ?_) (fun hr => hout ?_) (fun hr => hout ?_)
  · have := windowReg_eq_cmd hr; omega
  · have := windowReg_eq_arg0 hr; omega
  · have := windowReg_eq_arg1 hr; omega

/-! ## Side effects -/

/-- An admitted load changes nothing but the queue and the record of loads (R61). -/
theorem step_load {s t : State} {addr width : Nat} {rest : List HostAction}
    (hp : s.pending = .load addr width :: rest) (h : step s = .next t) :
    t = { s with
      pending := rest
      reads := wordBytes (loadReg s (windowReg s.ctxs.length (addr - s.platform.mmioBase))) :: s.reads } := by
  rw [step_pending hp] at h
  simpa using (performLoad_cases h).2

/-- A step that performs a store performs it on the window register at its offset. -/
theorem step_store {s t : State} {addr : Nat} {data : List Byte} {rest : List HostAction}
    (hp : s.pending = .store addr data :: rest) (h : step s = .next t) :
    storeReg { s with pending := rest } (windowReg s.ctxs.length (addr - s.platform.mmioBase)) (le64 data 0)
      = .next t := by
  rw [step_pending hp] at h
  exact (performStore_cases h).2

/-- A step whose next action is a store at an aligned offset of a context's window. -/
theorem step_storesNext_ctx {s : State} {c r : Nat} {w : Word} {rest : List HostAction}
    (hs : StoresNext s (ctxOffset c + r) w rest) (hc : c < 64) (hr : r < 0x40) (h8 : r % 8 = 0) :
    step s = storeReg { s with pending := rest } (windowReg s.ctxs.length (ctxOffset c + r)) w := by
  have ho : ctxOffset c + r < 0x2000 ∧ (ctxOffset c + r) % 8 = 0 := by simp only [ctxOffset]; omega
  exact step_storesNext hs ho.1 ho.2

section

variable {s : State} {c : Nat} {x : Context} {w : Word} {rest : List HostAction}

/-- A store to ARG0 of a present context writes that register (R61). -/
theorem step_storeArg0 (hs : StoresNext s (ctxOffset c + 0x08) w rest) (hc : c < 64) (hx : s.ctxs[c]? = some x) :
    step s = .next { s with pending := rest, ctxs := s.ctxs.set c { x with arg0 := w } } := by
  rw [step_storesNext_ctx hs hc (by decide) (by decide), windowReg_ctx (lt_length_of_ctx hx) (by decide)]
  exact congrArg _ (storeField_eq (s := { s with pending := rest }) _ hx)

/-- A store to ARG1 of a present context writes that register (R61). -/
theorem step_storeArg1 (hs : StoresNext s (ctxOffset c + 0x10) w rest) (hc : c < 64) (hx : s.ctxs[c]? = some x) :
    step s = .next { s with pending := rest, ctxs := s.ctxs.set c { x with arg1 := w } } := by
  rw [step_storesNext_ctx hs hc (by decide) (by decide), windowReg_ctx (lt_length_of_ctx hx) (by decide)]
  exact congrArg _ (storeField_eq (s := { s with pending := rest }) _ hx)

/-- A store to CMD of a present context starts a command (R61, 43_digest_commands.md R160). -/
theorem step_storeCmd (hs : StoresNext s (ctxOffset c) w rest) (hc : c < 64) (hx : s.ctxs[c]? = some x) :
    step s = storeCmd { s with pending := rest } c w := by
  rw [step_storesNext_ctx (r := 0) hs hc (by decide) (by decide), windowReg_ctx (lt_length_of_ctx hx) (by decide)]
  rfl

end

/-- Settles O12, by one rule per writing store, and by the frame of `storeReg` for what every store keeps. -/
theorem sideEffectsOfWindowAccesses : Obligations.SideEffectsOfWindowAccesses := by
  refine ⟨fun s t addr width rest hp h => step_load hp h, fun s c x w rest hc hx => ?_,
    fun s t addr data rest hp h => ?_⟩
  · exact ⟨fun hs => step_storeArg0 hs hc hx, fun hs => step_storeArg1 hs hc hx, step_storeConfig,
      fun hs => step_storeCmd hs hc hx⟩
  · have hstore := step_store hp h
    refine ⟨fun a => by rw [(storeReg_frame hstore).1], fun c c' hlo hhi hne => ?_⟩
    exact (storeReg_windowReg_other_ctx hstore (Nat.le_sub_of_add_le' hlo) (by omega) hne :)

/-! ## The WRITE of length 0 -/

/-- Reporting OK keeps STICKY (R204). -/
theorem Context.setCode_ok (x : Context) : x.setCode .ok = { x with code := .ok } := by
  simp [Context.setCode]

/-- A command that commits its context as it is writes CODE = OK and nothing else. -/
theorem exec_of_commit_same {i : Instr} {s : State} {x : Context} (hx : s.ctxs[i.ctx]? = some x)
    (h : commandBody i s x = .ok { dispatch := s.dispatch, ctx := x }) :
    exec i s = .next { s with ctxs := s.ctxs.set i.ctx { x with code := .ok } } := by
  rw [exec_ok hx h, commitCommand, Context.setCode_ok]

/-- A buffer of length 0 is neither checked nor read, and an engine that keeps the register over no bytes commits
nothing (R54). -/
theorem extendCrc_empty (s : State) {x : Context} (hlen : x.arg1 = 0) {update : Word → List Byte → Word}
    (hnil : update x.crc [] = x.crc) : extendCrc s x update = .ok { dispatch := s.dispatch, ctx := x } := by
  have hbuf : writeBuffer s x = .ok [] := by simp [writeBuffer, hlen]
  simp only [extendCrc, hbuf, hnil]

/-- The Table Engine keeps the register over no bytes (R107). -/
theorem tableUpdate_nil (r : Word) : tableUpdate r [] = r := rfl

/-- The Fold Engine keeps the register over no bytes (R132). -/
theorem foldUpdate_nil (r : Word) : foldUpdate r [] = r := rfl

/-- Either bound engine keeps the register over no bytes. -/
theorem boundUpdate_nil (eng : Option Engine) (r : Word) : boundUpdate eng r [] = r := by
  unfold boundUpdate
  split
  · exact foldUpdate_nil r
  · exact tableUpdate_nil r

/-- Settles O33: with the checks passed, each WRITE commits its context as it is. -/
theorem zeroLengthWriteIsANoOp : Obligations.ZeroLengthWriteIsANoOp := by
  intro s c x hx hbound hlen
  refine ⟨exec_of_commit_same (i := .write c) hx ?_, exec_of_commit_same (i := .writeT c) hx ?_,
    fun hcaps => exec_of_commit_same (i := .writeF c) hx ?_⟩
  · simp only [commandBody, needBound, hbound, if_true, extendCrc_empty s hlen (boundUpdate_nil _ _)]
  · simp only [commandBody, needBound, hbound, if_true, extendCrc_empty s hlen (tableUpdate_nil _)]
  · simp only [commandBody, needBound, hbound, (foldOk_iff _).mpr hcaps, if_true,
      extendCrc_empty s hlen (foldUpdate_nil _)]

end Sys2Proof.Machine
end

