-- ==== Sys2Proof/Proofs/Encoding.lean ====
section
/-! PROOFS. The command words (30_encoding.md): which words decode, why the others are illegal, and what an illegal
word does. -/

namespace Sys2Proof.Machine

/-! ## Words that decode -/

/-- A word without reserved bits is its `OP` and its `ENG` (R70). -/
theorem eq_packWord_of_rsvField {w : Word} (hr : rsvField w = 0) : w = packWord (opField w) (engField w) := by
  refine BitVec.eq_of_getLsbD_eq fun i hi => ?_
  simp only [packWord, opField, engField, BitVec.getLsbD_or, BitVec.getLsbD_setWidth, BitVec.getLsbD_shiftLeft,
    BitVec.getLsbD_extractLsb', Nat.zero_add]
  rcases (by omega : i < 8 ∨ (8 ≤ i ∧ i < 10) ∨ 10 ≤ i) with hop | ⟨hlo, heng⟩ | hrsv
  · simp [hi, hop]
  · simp [hi, Nat.not_lt.mpr hlo, Nat.add_sub_cancel' hlo, show i - 8 < 2 by omega, show i - 8 < 64 by omega]
  · have hbit : w.getLsbD i = false := by
      simpa [rsvField, Nat.add_sub_cancel' hrsv, show i - 10 < 54 by omega] using congrArg (·.getLsbD (i - 10)) hr
    simp [hbit, show ¬ i < 8 by omega, show ¬ i - 8 < 2 by omega]

/-! `packWord` puts each field where the decoder reads it (R70). -/

@[simp] theorem rsvField_packWord (op : BitVec 8) (eng : BitVec 2) : rsvField (packWord op eng) = 0 := by
  refine BitVec.eq_of_getLsbD_eq fun i hi => ?_
  have hop : op.getLsbD (10 + i) = false := BitVec.getLsbD_of_ge _ _ (by omega)
  have heng : eng.getLsbD (10 + i - 8) = false := BitVec.getLsbD_of_ge _ _ (by omega)
  simp [rsvField, packWord, hop, heng]

@[simp] theorem opField_packWord (op : BitVec 8) (eng : BitVec 2) : opField (packWord op eng) = op := by
  refine BitVec.eq_of_getLsbD_eq fun i hi => ?_
  simp [opField, packWord, hi, show i < 64 by omega]

@[simp] theorem engField_packWord (op : BitVec 8) (eng : BitVec 2) : engField (packWord op eng) = eng := by
  refine BitVec.eq_of_getLsbD_eq fun i hi => ?_
  simp [engField, packWord, hi, show 8 + i < 64 by omega]

/-- Every command decodes from its own word (R71, R72). -/
theorem decode_encodeWord (i : Instr) : decode i.ctx (encodeWord i) = .ok i := by
  cases i <;> simp [decode, encodeWord, Instr.ctx]

/-- A word that decodes is the word of the command it decodes to. -/
theorem eq_encodeWord_of_decode {c : Nat} {w : Word} {i : Instr} (h : decode c w = .ok i) : w = encodeWord i := by
  simp only [decode, ne_eq, ite_not] at h
  split at h
  next hr =>
    rw [eq_packWord_of_rsvField hr]
    repeat' split at h
    all_goals cases h
    all_goals simp only [encodeWord, *]
  · cases h

/-- The decoder inverts `encodeWord` (R74). -/
theorem decode_eq_ok_iff {c : Nat} {w : Word} {i : Instr} : decode c w = .ok i ↔ i.ctx = c ∧ w = encodeWord i := by
  constructor
  · exact fun h => ⟨decode_ctx h, eq_encodeWord_of_decode h⟩
  · rintro ⟨rfl, rfl⟩
    exact decode_encodeWord i

/-- The illegal words are those of no command. -/
theorem decode_eq_error_iff {c : Nat} {w : Word} :
    (∃ e, decode c w = .error e) ↔ ∀ i, i.ctx = c → w ≠ encodeWord i := by
  constructor
  · rintro ⟨e, he⟩ i hc hw
    cases he.symm.trans (decode_eq_ok_iff.mpr ⟨hc, hw⟩)
  · intro h
    cases hd : decode c w with
    | error e => exact ⟨e, rfl⟩
    | ok i => exact absurd (eq_encodeWord_of_decode hd) (h i (decode_ctx hd))

/-- Settles O2: the eight words are the values of `encodeWord`, which the decoder inverts. -/
theorem eightWordsDecodeAndNoOther : Obligations.EightWordsDecodeAndNoOther := by
  intro c w
  have hword {i : Instr} (hc : i.ctx = c) : decode c w = .ok i ↔ w = encodeWord i := by
    simp only [decode_eq_ok_iff, hc, true_and]
  refine ⟨hword rfl, hword rfl, hword rfl, hword rfl, hword rfl, hword rfl, hword rfl, hword rfl,
    decode_eq_error_iff.trans ⟨fun h => ?_, ?_⟩⟩
  · exact ⟨h (.new c) rfl, h (.reset c) rfl, h (.write c) rfl, h (.writeT c) rfl, h (.writeF c) rfl,
      h (.sum c) rfl, h (.select c) rfl, h (.drop c) rfl⟩
  · rintro ⟨hnew, hreset, hwrite, hwriteT, hwriteF, hsum, hselect, hdrop⟩ i -
    cases i with
    | new => exact hnew
    | reset => exact hreset
    | write => exact hwrite
    | writeT => exact hwriteT
    | writeF => exact hwriteF
    | sum => exact hsum
    | select => exact hselect
    | drop => exact hdrop

/-! ## Words that are illegal, by the field at fault -/

section

variable {w : Word} (c : Nat)

/-- A reserved bit makes a word illegal (R73). -/
theorem decode_of_reservedBits (hr : rsvField w ≠ 0) : decode c w = .error .reservedBits :=
  if_pos hr

/-- `OP` = 0x03 has no engine 0b11 (R72). -/
theorem decode_of_reservedEngine (hr : rsvField w = 0) (ho : opField w = 0x03) (he : engField w = 0b11) :
    decode c w = .error .reservedEngine := by
  simp [decode, hr, ho, he]

/-- Only `OP` = 0x03 takes an engine (R73). -/
theorem decode_of_engineNotAllowed (hr : rsvField w = 0) (ho : opField w ≠ 0x03) (he : engField w ≠ 0) :
    decode c w = .error .engineNotAllowed := by
  rw [decode, if_neg (not_not.mpr hr), if_neg ho, if_pos he]

end

/-- Settles O3: each word of R80 is illegal for the field that R80 names. -/
theorem encodingExamplesOfTheSpec : Obligations.EncodingExamplesOfTheSpec := by
  refine ⟨rfl, fun c => ⟨?_, ?_, ?_⟩⟩
  · exact decode_of_reservedBits c (by decide)
  · exact decode_of_reservedEngine c (by decide) (by decide) (by decide)
  · exact decode_of_engineNotAllowed c (by decide) (by decide) (by decide)

/-! ## What an illegal word does -/

/-- Reporting ILLEGAL_COMMAND sets STICKY (R204). -/
theorem Context.setCode_illegalCommand (x : Context) :
    x.setCode .illegalCommand = { x with code := .illegalCommand, sticky := true } := by
  simp [Context.setCode]

/-- Settles O4: the field at fault gives the error of the decoder, and a CMD store of an illegal word ends in
`failCommand`. -/
theorem illegalWordOnlyReports : Obligations.IllegalWordOnlyReports := by
  refine ⟨fun c w hbad => ?_, fun s c w rest x e hs hc hx he => ?_⟩
  · by_cases hr : rsvField w = 0
    · obtain ⟨ho, heng⟩ := hbad.resolve_left (not_not.mpr hr)
      exact ⟨_, decode_of_engineNotAllowed c hr ho heng⟩
    · exact ⟨_, decode_of_reservedBits c hr⟩
  · rw [step_storeCmd hs hc hx, storeCmd_error (s := { s with pending := rest }) hx he, failCommand,
      Context.setCode_illegalCommand]
    rfl

end Sys2Proof.Machine
end

