-- ==== Sys2Proof/Proofs/TableEngine.lean ====
section
/-! PROOFS. The Table Store and the Table Engine (40_table_engine.md): the tables are linear in the byte index and hold
the spec's basis entries (section 1), and the engine computes the byte-serial CRC (section 2). -/

namespace Sys2Proof.Machine

/-! ## The Table Store -/

/-- Bit steps of a byte are linear in the byte, so every table is (R103). -/
theorem tbl_xor (k : Nat) (a b : Byte) : tbl k (a ^^^ b) = tbl k a ^^^ tbl k b := by
  simp only [tbl_eq, BitVec.setWidth_xor, crcBits_xor]

@[simp] theorem tbl_zero (k : Nat) : tbl k 0 = 0 := by
  rw [tbl_eq]
  exact crcBits_zero _

/-- Row 0 of the spec's table holds eight bit steps of each single-bit byte (R101). -/
theorem romBasis_row_zero : ∀ i < 8, tbl0 (1#8 <<< i) = (romBasis.getD 0 []).getD i 0 := by
  decide +kernel

/-- Each row of the spec's table follows from the row above by the recurrence of R102. -/
theorem romBasis_row_succ : ∀ k < 15, ∀ i < 8,
    nextEntry ((romBasis.getD k []).getD i 0) = (romBasis.getD (k + 1) []).getD i 0 := by
  decide +kernel

/-- The basis entries of the sixteen tables are those of the spec's table (R103). -/
theorem tbl_unit_eq_romBasis {k i : Nat} (hk : k < 16) (hi : i < 8) :
    tbl k (1#8 <<< i) = (romBasis.getD k []).getD i 0 := by
  induction k with
  | zero => exact romBasis_row_zero i hi
  | succ k ih => rw [tbl, ih (by omega), romBasis_row_succ k (by omega) i hi]

/-- A byte is the XOR of its single bits. -/
theorem byte_eq_foldl_bits (b : Byte) :
    b = (List.range 8).foldl (fun acc i => acc ^^^ (if b.getLsbD i then 1#8 <<< i else 0)) 0 := by
  revert b
  decide +kernel

/-- An entry is the XOR of the entries of its index's bits. -/
theorem tbl_eq_foldl_bits (k : Nat) (b : Byte) :
    tbl k b = (List.range 8).foldl (fun acc i => acc ^^^ (if b.getLsbD i then tbl k (1#8 <<< i) else 0)) 0 := by
  conv_lhs => rw [byte_eq_foldl_bits b]
  rw [← tbl_zero k]
  refine (List.foldl_hom (tbl k) fun acc i => ?_).symm
  rw [tbl_xor, apply_ite (tbl k)]

/-- Settles O42: the tables are linear, and R102's recurrence carries the basis entries from row to row. -/
theorem tableStoreIsLinearOverItsBasis : Obligations.TableStoreIsLinearOverItsBasis := by
  refine ⟨tbl_xor, tbl_zero, fun k i hk hi => tbl_unit_eq_romBasis hk hi, fun k b hk => ?_⟩
  rw [tbl_eq_foldl_bits]
  refine List.foldl_ext _ _ _ fun acc i hi => ?_
  rw [tbl_unit_eq_romBasis hk (List.mem_range.mp hi)]

/-! ## The Table Engine -/

/-- `8 (k + 8)` bit steps of a word, byte by byte: byte `j` is looked up in table `k + 7 - j`, as `k` more bytes follow
the word. -/
theorem crcBits_eq_tbl_bytes (k : Nat) (v : Word) : crcBits (8 * (k + 8)) v =
    tbl (k + 7) (byteOf v 0) ^^^ tbl (k + 6) (byteOf v 1) ^^^ tbl (k + 5) (byteOf v 2) ^^^ tbl (k + 4) (byteOf v 3)
      ^^^ tbl (k + 3) (byteOf v 4) ^^^ tbl (k + 2) (byteOf v 5) ^^^ tbl (k + 1) (byteOf v 6)
      ^^^ tbl k (byteOf v 7) := by
  simpa only [tbl_eq, Nat.mul_add, Nat.add_assoc, Nat.reduceMul, Nat.reduceAdd] using crcBits_bytes (8 * (k + 1)) v

/-- The slice step is 128 bit steps of the register with the first eight bytes, and 64 of the last eight (R106). -/
theorem slice16_eq_crcBits (r : Word) {q : List Byte} (hq : q.length = 16) :
    slice16 r q = crcBits 128 (r ^^^ le64 q 0) ^^^ crcBits 64 (le64 q 8) := by
  have hhi := crcBits_eq_tbl_bytes 8 (r ^^^ le64 q 0)
  have hlo := crcBits_eq_tbl_bytes 0 (le64 q 8)
  simp (disch := omega) only [byteOf_le64, Nat.reduceAdd] at hlo
  rw [show crcBits 128 _ = _ from hhi, show crcBits 64 _ = _ from hlo]
  simp only [slice16, BitVec.xor_assoc]

/-- The slice step is sixteen byte steps (R106). -/
theorem slice16_eq_byteSerial (r : Word) {q : List Byte} (hq : q.length = 16) : slice16 r q = byteSerial r q := by
  obtain ⟨hlo, hhi⟩ := le128_split q 0
  rw [slice16_eq_crcBits r hq, byteSerial_sixteen r q hq, red, hlo, hhi, crcBits_xor, crcBits_xor, ← crcBits_add,
    BitVec.xor_assoc]

/-- The loops of R107 consume the string from the left, sixteen bytes or one at a time. -/
theorem tableLoop_eq_byteSerial {chunks : Nat} (r : Word) {d : List Byte} (h : 16 * chunks ≤ d.length) :
    tableLoop chunks r d = byteSerial r d := by
  induction chunks generalizing r d with
  | zero => rfl
  | succ chunks ih =>
    have htake : (d.take 16).length = 16 := by rw [List.length_take]; omega
    have hdrop : 16 * chunks ≤ (d.drop 16).length := by rw [List.length_drop]; omega
    rw [tableLoop, ih _ hdrop, slice16_eq_byteSerial r htake, ← byteSerial_append, List.take_append_drop]

/-- The Table Engine computes the byte-serial CRC (R105). -/
theorem tableUpdate_eq_byteSerial (r : Word) (d : List Byte) : tableUpdate r d = byteSerial r d :=
  tableLoop_eq_byteSerial r (Nat.mul_div_le _ _)

/-- Settles O45: the Table Engine is the byte-serial CRC, a left fold over the bytes. -/
theorem chunkingInvariant : Obligations.ChunkingInvariant := by
  intro r a b
  simp only [tableUpdate_eq_byteSerial, byteSerial_append]

end Sys2Proof.Machine
end

