-- ==== Sys2Proof/Proofs/FoldEngine.lean ====
section
/-! PROOFS. The Fold Engine is the byte-serial CRC (41_fold_engine.md R132, R133). At every point of the pipeline the
accumulator stands for the blocks consumed so far: its residue, 64 bit steps on, is their byte-serial CRC. -/

namespace Sys2Proof.Machine

/-- The middle two of four words change places. -/
theorem word_xor_xor_xor_comm (p q u v : Word) : p ^^^ q ^^^ (u ^^^ v) = p ^^^ u ^^^ (q ^^^ v) := by
  ac_rfl

/-! ## The Barrett reduction -/

/-- The Barrett reduction of a low half `v`, which is `BARRETT` without its high half (R129). -/
def barrettLow (v : Word) : Word :=
  (clmul (v ^^^ (loHalf (clmul v muConst) <<< 1)) polyR).extractLsb' 63 64

/-- `BARRETT` reduces the low half and keeps the high half (R129). -/
theorem barrett_eq_barrettLow (t : Block) : barrett t = barrettLow (loHalf t) ^^^ hiHalf t := rfl

/-- The Barrett reduction of a low half is linear. -/
theorem barrettLow_xor (a b : Word) : barrettLow (a ^^^ b) = barrettLow a ^^^ barrettLow b := by
  simp only [barrettLow, clmul_xor, loHalf_xor, BitVec.shiftLeft_xor_distrib, word_xor_xor_xor_comm,
    BitVec.extractLsb'_xor]

/-- On each single bit the Barrett reduction is 64 bit steps. -/
theorem barrettLow_unit : ∀ k, k < 64 → barrettLow (1#64 <<< k) = crcBits 64 (1#64 <<< k) := by
  decide +kernel

/-- The Barrett reduction keeps 0. -/
theorem barrettLow_zero : barrettLow 0 = 0 := by
  have h := barrettLow_xor 0 0
  simpa using h

/-- The Barrett reduction of a low half is 64 bit steps, as both are linear and agree on the single bits. -/
theorem barrettLow_eq_crcBits (v : Word) : barrettLow v = crcBits 64 v :=
  eq_of_units (· ^^^ ·) barrettLow (crcBits 64) barrettLow_xor (crcBits_xor 64)
    (barrettLow_zero.trans (crcBits_zero 64).symm) barrettLow_unit v

/-- `BARRETT` computes the residue (R129). -/
theorem barrett_eq_red (t : Block) : barrett t = red t := by
  rw [barrett_eq_barrettLow, barrettLow_eq_crcBits, red]

/-! ## Block after block -/

/-- `acc` stands for the first `i` blocks of `d` consumed from `r`. -/
def Absorbed (r : Word) (d : List Byte) (i : Nat) (acc : Block) : Prop :=
  crcBits 64 (red acc) = byteSerial r (d.take (16 * i))

/-- One more block is 128 bit steps of the register and 64 of the block's residue. -/
theorem byteSerial_take_succ (r : Word) {d : List Byte} {i : Nat} (h : 16 * (i + 1) ≤ d.length) :
    byteSerial r (d.take (16 * (i + 1))) =
      crcBits 128 (byteSerial r (d.take (16 * i))) ^^^ crcBits 64 (red (blk d i)) := by
  have hlen : ((d.drop (16 * i)).take 16).length = 16 := by simp; omega
  have hblk : le128 ((d.drop (16 * i)).take 16) 0 = blk d i := by
    rw [le128, List.drop_zero, List.take_take, Nat.min_self, blk, le128]
  rw [Nat.mul_succ, List.take_add, byteSerial_append, byteSerial_sixteen _ _ hlen, hblk]

/-- A register injected into a block stands 128 bit steps before the block's end (R122). -/
theorem crcBits_red_inject (r : Word) (b : Block) :
    crcBits 64 (red (b ^^^ r.setWidth 128)) = crcBits 128 r ^^^ crcBits 64 (red b) := by
  rw [red_xor, red_setWidth, crcBits_xor, ← crcBits_add, BitVec.xor_comm]

/-- The first block with the register injected stands for the first block (R122). -/
theorem absorbed_first (r : Word) {d : List Byte} (h : 16 ≤ d.length) :
    Absorbed r d 1 (blk d 0 ^^^ r.setWidth 128) := by
  have hfirst := byteSerial_take_succ r (i := 0) h
  rw [Nat.mul_zero, List.take_zero, byteSerial_nil] at hfirst
  exact (crcBits_red_inject r (blk d 0)).trans hfirst.symm

/-- A fold by one block consumes the next block (R127). -/
theorem Absorbed.foldBlock {r : Word} {d : List Byte} {i : Nat} {acc : Block} (hacc : Absorbed r d i acc)
    (h : 16 * (i + 1) ≤ d.length) : Absorbed r d (i + 1) (foldBy 16 acc ^^^ blk d i) := by
  have hfold : crcBits 64 (red (foldBy 16 acc)) = crcBits 128 (crcBits 64 (red acc)) := by
    rw [red_foldBy 16 (by decide), ← crcBits_add, ← crcBits_add]
  rw [Absorbed, red_xor, crcBits_xor, hfold, hacc, byteSerial_take_succ r h]

/-- The loop over whole blocks consumes them all (R127). -/
theorem Absorbed.foldBlocks {r : Word} {d : List Byte} {count i : Nat} {acc : Block} (hacc : Absorbed r d i acc)
    (h : 16 * (i + count) ≤ d.length) : Absorbed r d (i + count) (foldBlocks d count i acc) := by
  induction count generalizing i acc with
  | zero => exact hacc
  | succ count ih =>
    have hnext := ih (hacc.foldBlock (by omega)) (by omega)
    rwa [Nat.add_assoc, Nat.add_comm 1] at hnext

/-- Accumulators of one residue stand for the same blocks. -/
theorem Absorbed.of_red_eq {r : Word} {d : List Byte} {i : Nat} {acc acc' : Block} (hacc : Absorbed r d i acc)
    (h : red acc' = red acc) : Absorbed r d i acc' := by
  rw [Absorbed, h, hacc]

/-! ## The lanes -/

/-- The reduced lanes have the residue of one-block folds from lane to lane (R126). -/
theorem red_lanesReduce (l : Lanes) : red (lanesReduce l) =
    red (foldBy 16 (foldBy 16 (foldBy 16 (foldBy 16 (foldBy 16 (foldBy 16 (foldBy 16 l.l0 ^^^ l.l1)
      ^^^ l.l2) ^^^ l.l3) ^^^ l.l4) ^^^ l.l5) ^^^ l.l6) ^^^ l.l7) := by
  simp (disch := decide) only [lanesReduce, red_xor, red_foldBy, crcBits_xor, ← crcBits_add, Nat.reduceMul,
    Nat.reduceAdd, BitVec.xor_assoc]
  rw [BitVec.xor_comm (red l.l7)]
  simp only [BitVec.xor_assoc]

/-- The initial lanes are folded as the first eight blocks are, one after the other (R124). -/
theorem red_lanesReduce_init (r : Word) (d : List Byte) :
    red (lanesReduce (lanesInit r d)) = red (foldBlocks d 7 1 (blk d 0 ^^^ r.setWidth 128)) :=
  red_lanesReduce _

/-- One-block folds carry a lane's old value along: `acc` holds `u` folded by 128 bytes and the new blocks `v`, and
the next lane holds `a` and `b` so. -/
theorem red_foldBy_lane {acc u v : Block} (a b : Block) (h : red acc = red (foldBy 128 u ^^^ v)) :
    red (foldBy 16 acc ^^^ (foldBy 128 a ^^^ b)) = red (foldBy 128 (foldBy 16 u ^^^ a) ^^^ (foldBy 16 v ^^^ b)) := by
  simp (disch := decide) only [red_xor, red_foldBy, h, crcBits_xor, ← crcBits_add, Nat.reduceMul, Nat.reduceAdd]
  exact word_xor_xor_xor_comm ..

/-- A fold is linear. -/
theorem foldBy_xor (D : Nat) (a b : Block) : foldBy D (a ^^^ b) = foldBy D a ^^^ foldBy D b := by
  simp only [foldBy, loHalf_xor, hiHalf_xor, clmul_xor]
  ac_rfl

/-- Folding over `count` blocks moves a summand of the accumulator `count` blocks on. -/
theorem red_foldBlocks_xor (d : List Byte) (count i : Nat) (a b : Block) :
    red (foldBlocks d count i (a ^^^ b)) = crcBits (128 * count) (red a) ^^^ red (foldBlocks d count i b) := by
  induction count generalizing i a b with
  | zero => exact red_xor a b
  | succ count ih =>
    rw [foldBlocks, foldBy_xor, BitVec.xor_assoc, ih, red_foldBy 16 (by decide), ← crcBits_add,
      Nat.mul_succ 128, foldBlocks]

/-- A fold over `count + 1` blocks is the accumulator moved on over them, and a fold that starts from the first. -/
theorem red_foldBlocks_succ (d : List Byte) (count i : Nat) (acc : Block) :
    red (foldBlocks d (count + 1) i acc) =
      crcBits (128 * (count + 1)) (red acc) ^^^ red (foldBlocks d count (i + 1) (blk d i)) := by
  rw [foldBlocks, red_foldBlocks_xor, red_foldBy 16 (by decide), ← crcBits_add, Nat.mul_succ 128]

/-- An iteration of the large-stride loop has the residue of eight one-block folds of the reduced lanes (R125): both are the
old lanes folded by 128 bytes and the fold of the eight new blocks, lane by lane. -/
theorem red_lanesReduce_step (d : List Byte) (g : Nat) (l : Lanes) :
    red (lanesReduce (lanesStep d g l)) = red (foldBlocks d 8 (8 * g) (lanesReduce l)) := by
  rw [red_foldBlocks_succ d 7, red_lanesReduce l, ← red_foldBy 128 (by decide), ← red_xor, red_lanesReduce]
  iterate 7 apply red_foldBy_lane
  rfl

/-- The reduced lanes stand for the blocks of all iterations so far (R125). -/
theorem absorbed_lanes (r : Word) {d : List Byte} {g : Nat} (h : 128 * (g + 1) ≤ d.length) :
    Absorbed r d (8 * (g + 1)) (lanesReduce (lanesAt r d g)) := by
  induction g with
  | zero =>
    have hblocks := (absorbed_first r (d := d) (by omega)).foldBlocks (count := 7) (by omega)
    exact hblocks.of_red_eq (red_lanesReduce_init r d)
  | succ g ih =>
    have hblocks := (ih (by omega)).foldBlocks (count := 8) (by omega)
    exact hblocks.of_red_eq (red_lanesReduce_step d (g + 1) _)

/-! ## The pipeline -/

/-- The head of the pipeline stands for the blocks before the index it answers, which are in the string (R131). -/
theorem absorbed_foldHead (r : Word) {d : List Byte} (h : 16 ≤ d.length) :
    Absorbed r d (foldHead r d).2 (foldHead r d).1 ∧ (foldHead r d).2 ≤ d.length / 16 := by
  simp only [foldHead]
  split
  next hgroups =>
    obtain ⟨g, hg⟩ := Nat.exists_eq_add_of_le' hgroups
    rw [hg]
    exact ⟨absorbed_lanes r (by omega), by dsimp only; omega⟩
  next => exact ⟨absorbed_first r h, by dsimp only; omega⟩

/-- Below 16 bytes the Fold Engine delegates to the Table Engine (R132). -/
theorem foldUpdate_short (r : Word) {d : List Byte} (h : d.length < 16) : foldUpdate r d = tableUpdate r d :=
  if_pos h

/-- From 16 bytes on the pipeline computes the byte-serial CRC (R131). -/
theorem foldUpdate_long (r : Word) {d : List Byte} (h : 16 ≤ d.length) : foldUpdate r d = byteSerial r d := by
  obtain ⟨hhead, hle⟩ := absorbed_foldHead r h
  have hacc := hhead.foldBlocks (count := d.length / 16 - (foldHead r d).2) (by omega)
  rw [Nat.add_sub_cancel' hle] at hacc
  calc foldUpdate r d
      = byteSerial (barrett (fold64 (foldBlocks d (d.length / 16 - (foldHead r d).2) (foldHead r d).2
          (foldHead r d).1))) (d.drop (16 * (d.length / 16))) := if_neg (Nat.not_lt.mpr h)
    _ = byteSerial (byteSerial r (d.take (16 * (d.length / 16)))) (d.drop (16 * (d.length / 16))) := by
        rw [barrett_eq_red, red_fold64, hacc]
    _ = byteSerial r d := by rw [← byteSerial_append, List.take_append_drop]

/-- The Fold Engine computes the byte-serial CRC (R133). -/
theorem foldUpdate_eq_byteSerial (r : Word) (d : List Byte) : foldUpdate r d = byteSerial r d := by
  rcases Nat.lt_or_ge d.length 16 with h | h
  · rw [foldUpdate_short r h, tableUpdate_eq_byteSerial]
  · exact foldUpdate_long r h

/-- Settles O51: the pipeline's first test, and no byte leaves the register. -/
theorem shortFoldIsTableUpdate : Obligations.ShortFoldIsTableUpdate := by
  intro r d h
  refine ⟨foldUpdate_short r h, fun hzero => ?_⟩
  rw [List.length_eq_zero_iff.mp hzero, foldUpdate_nil]

/-- Settles O52: both engines are the byte-serial CRC, whose polynomial is the remainder of R9. -/
theorem foldUpdateEqualsTableUpdate : Obligations.FoldUpdateEqualsTableUpdate := by
  intro r d
  refine ⟨?_, tableUpdate_eq_byteSerial r d, fun pr pr' pd pg hr hr' hd hg => ?_⟩
  · rw [foldUpdate_eq_byteSerial, tableUpdate_eq_byteSerial]
  · rw [foldUpdate_eq_byteSerial] at hr'
    exact readsWord_byteSerial_eq_modByMonic hr hr' hd hg

end Sys2Proof.Machine
end

