-- ==== Sys2Proof/Proofs/Dispatch.lean ====
section
/-! PROOFS. Capability dispatch (42_dispatch.md): who writes the latch (R152), which engine a NEW binds (R154), and
what keeps a binding (R155). -/

namespace Sys2Proof.Machine

/-! ## Resolve and the binding of NEW -/

section

variable {s : State}

/-- A resolved latch is the answer of `Resolve`, and stays (R151, R152). -/
theorem resolve_resolved {e : Engine} (h : s.dispatch = some e) : resolve s = (e, some e) := by
  simp only [resolve, h]

/-- From an untested latch `Resolve` answers the capability decision (R151). -/
theorem resolve_untested (h : s.dispatch = none) : (resolve s).1 = .fold ↔ s.caps = 0b111#3 := by
  rw [← foldOk_iff]
  cases hf : foldOk s.caps <;> simp [resolve, h, hf]

/-- With the override on, NEW binds TABLE and does not probe (R154). -/
theorem bindNew_forced (h : s.forceTable = true) : bindNew s = (.table, s.dispatch) :=
  if_pos h

/-- Without the override, NEW resolves the latch (R154). -/
theorem bindNew_unforced (h : s.forceTable = false) : bindNew s = resolve s := by
  simp only [bindNew, h, Bool.false_eq_true, if_false]

/-- Only a capable block answers FOLD. -/
theorem capable_of_resolve_fold (hinv : s.Inv) (h : (resolve s).1 = .fold) : s.caps = 0b111#3 := by
  cases hd : s.dispatch with
  | none => exact (resolve_untested hd).mp h
  | some e =>
    rw [resolve_resolved hd] at h
    exact (foldOk_iff _).mp ((hinv.latch e hd).mp h)

/-- Only a capable block binds FOLD (R154). -/
theorem capable_of_bindNew_fold (hinv : s.Inv) (h : (bindNew s).1 = .fold) : s.caps = 0b111#3 := by
  cases hforce : s.forceTable with
  | true => rw [bindNew_forced hforce] at h; cases h
  | false => rw [bindNew_unforced hforce] at h; exact capable_of_resolve_fold hinv h

/-- NEW on a present context leaves the latch and the binding that `bindNew` answers (R161). -/
theorem exec_new {c : Nat} {x : Context} (hx : s.ctxs[c]? = some x) :
    ∃ t, exec (.new c) s = .next t ∧ t.dispatch = (bindNew s).2 ∧
      t.ctxs[c]? = some { x with eng := some (bindNew s).1, bound := true, crc := crcInit, code := .ok } := by
  refine ⟨_, exec_ok (i := .new c) hx rfl, rfl, ?_⟩
  rw [commitCommand_ctxs, Context.setCode_ok]
  exact List.getElem?_set_self (lt_length_of_ctx hx)

end

/-- The binding NEW makes on a block just reset (R154's truth table). -/
theorem bindNew_powerOn (p : Platform) (n : Nat) (v : BitVec 3) (force : Bool) :
    bindNew { State.powerOn p n v with forceTable := force } =
      if force = true then (.table, none)
      else if v = 0b111#3 then (.fold, some .fold) else (.table, some .table) := by
  cases force with
  | true => rfl
  | false =>
    rw [bindNew_unforced rfl]
    simp only [resolve, State.powerOn, foldOk_iff, Bool.false_eq_true, if_false]
    split <;> rfl

/-- Settles O22: NEW binds what `bindNew` answers, with one row of the truth table per override and capability. -/
theorem bindingAtNew : Obligations.BindingAtNew := by
  refine ⟨fun s c x hx => ?_, fun p n v force hn => ?_⟩
  · obtain ⟨t, ht, hlatch, hctx⟩ := exec_new hx
    refine ⟨t, _, ht, hctx, fun hforce => ?_, fun hforce => ?_, fun hinv hfold => ?_⟩
    · rw [hlatch, bindNew_forced hforce]; exact ⟨rfl, rfl⟩
    · rw [hlatch, bindNew_unforced hforce]; exact ⟨rfl, resolve_snd s⟩
    · exact capable_of_bindNew_fold hinv (Option.some.inj hfold)
  · have hx : ({ State.powerOn p n v with forceTable := force } : State).ctxs[0]? = some Context.reset :=
      List.getElem?_replicate_of_lt hn
    obtain ⟨t, ht, hlatch, hctx⟩ := exec_new hx
    refine ⟨t, _, ht, hctx, ?_⟩
    rw [State.dispatchWord, hlatch, bindNew_powerOn]
    cases force with
    | true => simp only [Bool.true_eq_false, false_and, if_true, if_false]; decide
    | false =>
      by_cases hv : v = 0b111#3
      · simp only [hv]; decide
      · simp only [hv]; decide

/-! ## Bindings -/

/-- The engine binding of context `c` (R26). -/
def State.binding (s : State) (c : Nat) : Option (Option Engine × Bool) :=
  s.ctxs[c]?.map fun x => (x.eng, x.bound)

/-- The same contents of a context are the same binding. -/
theorem State.binding_congr {s t : State} {c : Nat} (h : t.ctxs[c]? = s.ctxs[c]?) : t.binding c = s.binding c := by
  simp only [State.binding, h]

/-- Contexts with the same binding at `c` hold the same engine and the same BOUND. -/
theorem State.exists_ctx_of_binding_eq {s t : State} {c : Nat} {x : Context} (h : t.binding c = s.binding c)
    (hx : s.ctxs[c]? = some x) : ∃ y, t.ctxs[c]? = some y ∧ y.eng = x.eng ∧ y.bound = x.bound := by
  simpa [State.binding, hx] using h

/-- A context that is written with its old engine and BOUND leaves every binding. -/
theorem State.binding_eq_of_set {s t : State} {c : Nat} {x y : Context} (hx : s.ctxs[c]? = some x)
    (ht : t.ctxs = s.ctxs.set c y) (heng : y.eng = x.eng) (hbound : y.bound = x.bound) (c' : Nat) :
    t.binding c' = s.binding c' := by
  by_cases hc : c' = c
  · subst hc
    rw [State.binding, State.binding, ht, List.getElem?_set_self (lt_length_of_ctx hx), hx, Option.map_some,
      Option.map_some, heng, hbound]
  · exact State.binding_congr (by simp [ht, Ne.symm hc])

/-- A command that commits the engine and BOUND of its context as they were leaves every binding. -/
theorem commitCommand_binding {s : State} {c : Nat} {x : Context} {e : Commit} (hx : s.ctxs[c]? = some x)
    (heng : e.ctx.eng = x.eng) (hbound : e.ctx.bound = x.bound) (c' : Nat) :
    (commitCommand s c e).binding c' = s.binding c' :=
  State.binding_eq_of_set hx (commitCommand_ctxs s c e) heng hbound c'

/-- A command that fails leaves every binding (R203). -/
theorem failCommand_binding {s : State} {c : Nat} {x : Context} (hx : s.ctxs[c]? = some x) (code : ErrorCode)
    (c' : Nat) : (failCommand s c x code).binding c' = s.binding c' :=
  State.binding_eq_of_set hx (failCommand_ctxs s c x code) rfl rfl c'

/-- A store to a field other than the engine and BOUND leaves the latch and every binding. -/
theorem storeField_keeps (s : State) (c : Nat) {f : Context → Context} (heng : ∀ x, (f x).eng = x.eng)
    (hbound : ∀ x, (f x).bound = x.bound) :
    (storeField s c f).dispatch = s.dispatch ∧ ∀ c', (storeField s c f).binding c' = s.binding c' := by
  cases hx : s.ctxs[c]? with
  | none => simp only [storeField, hx, implies_true, and_self]
  | some x =>
    rw [storeField_eq f hx]
    exact ⟨rfl, State.binding_eq_of_set hx rfl (heng x) (hbound x)⟩

/-! ## What a command and a step do to the latch and to the bindings -/

section

variable {i : Instr} {s t : State}

/-- A command leaves the latch alone, or is a NEW without the override or a SELECT, which resolves it (R152). -/
theorem exec_dispatch (h : exec i s = .next t) :
    t.dispatch = s.dispatch ∨
    (((i = .new i.ctx ∧ s.forceTable = false) ∨ i = .select i.ctx) ∧ t.dispatch = (resolve s).2) := by
  rcases exec_cases h with ⟨-, rfl⟩ | ⟨x, -, ⟨e, he, rfl⟩ | ⟨code, -, rfl⟩⟩
  · exact .inl rfl
  · rcases commandBody_ok he with ⟨hi, rfl⟩ | ⟨-, -, rfl⟩ | ⟨-, -, v, rfl⟩ | ⟨-, -, rfl⟩ | ⟨hi, rfl⟩ | ⟨-, -, rfl⟩
    · cases hforce : s.forceTable with
      | true => exact .inl (by rw [commitCommand_dispatch, bindNew_forced hforce])
      | false => exact .inr ⟨.inl ⟨hi, rfl⟩, by rw [commitCommand_dispatch, bindNew_unforced hforce]⟩
    · exact .inl rfl
    · exact .inl rfl
    · exact .inl rfl
    · exact .inr ⟨.inr hi, rfl⟩
    · exact .inl rfl
  · exact .inl rfl

/-- A command leaves the binding of a context, unless it is a NEW or a DROP on that context (R155). -/
theorem exec_binding (h : exec i s = .next t) (c : Nat) :
    t.binding c = s.binding c ∨ i = .new c ∨ i = .drop c := by
  by_cases hc : c = i.ctx
  · subst hc
    rcases exec_cases h with ⟨-, rfl⟩ | ⟨x, hx, ⟨e, he, rfl⟩ | ⟨code, -, rfl⟩⟩
    · exact .inl rfl
    · rcases commandBody_ok he with ⟨hi, -⟩ | ⟨-, -, rfl⟩ | ⟨-, -, v, rfl⟩ | ⟨-, -, rfl⟩ | ⟨-, rfl⟩ | ⟨hi, -, -⟩
      · exact .inr (.inl hi)
      · exact .inl (commitCommand_binding hx rfl rfl _)
      · exact .inl (commitCommand_binding hx rfl rfl _)
      · exact .inl (commitCommand_binding hx rfl rfl _)
      · exact .inl (commitCommand_binding hx rfl rfl _)
      · exact .inr (.inr hi)
    · exact .inl (failCommand_binding hx code _)
  · rw [exec_eq_runCommand] at h
    exact .inl (State.binding_congr ((runCommand_frame h).2 c hc))

/-- A store to a window register runs a command of a present context's CMD, or leaves the latch and every
binding. -/
theorem storeReg_command_or_keeps {r : WindowReg} {w : Word} (h : storeReg s r w = .next t) :
    (∃ c i, r = .cmd c ∧ decode c w = .ok i ∧ exec i s = .next t) ∨
    (t.dispatch = s.dispatch ∧ ∀ c, t.binding c = s.binding c) := by
  rcases storeReg_cases h with ⟨c, hr, hcmd⟩ | ⟨-, rfl⟩ | ⟨c, -, rfl⟩ | ⟨c, -, rfl⟩ | rfl
  · rcases storeCmd_cases hcmd with ⟨i, hi, hexec⟩ | ⟨-, rfl⟩ | ⟨x, hx, rfl⟩
    · exact .inl ⟨c, i, hr, hi, hexec⟩
    · exact .inr ⟨rfl, fun _ => rfl⟩
    · exact .inr ⟨rfl, failCommand_binding hx _⟩
  · exact .inr ⟨rfl, fun _ => rfl⟩
  · exact .inr (storeField_keeps s c (fun _ => rfl) fun _ => rfl)
  · exact .inr (storeField_keeps s c (fun _ => rfl) fun _ => rfl)
  · exact .inr ⟨rfl, fun _ => rfl⟩

/-- The next action stores the word of command `i` to the CMD register of its present context, with `rest` behind
it. -/
def CommandNext (s : State) (i : Instr) (rest : List HostAction) : Prop :=
  i.ctx < s.ctxs.length ∧ ∃ data,
    s.pending = .store (s.platform.mmioBase + ctxOffset i.ctx) data :: rest ∧ decodeBytes i.ctx data = .ok i

/-- A step that is no block reset runs the command of a CMD store, or leaves the latch and every binding. -/
theorem step_command_or_keeps (h : step s = .next t) (hreset : NotResetting s) :
    (∃ i rest, CommandNext s i rest ∧ exec i { s with pending := rest } = .next t) ∨
    (t.dispatch = s.dispatch ∧ ∀ c, t.binding c = s.binding c) := by
  rcases step_cases h with ⟨-, rfl⟩ | ⟨addr, data, rest, hp, ⟨hlen, hlo, -, -⟩, hstore⟩ |
    ⟨addr, width, rest, v, -, -, rfl⟩ | ⟨a, v, rest, -, -, rfl⟩ | ⟨rest, hp, -⟩ | ⟨v, rest, -, rfl⟩
  · exact .inr ⟨rfl, fun _ => rfl⟩
  · rcases storeReg_command_or_keeps hstore with ⟨c, i, hr, hi, hexec⟩ | hkeep
    · obtain ⟨hoff, hc⟩ := windowReg_eq_cmd hr
      obtain rfl := decode_ctx hi
      have haddr : addr = s.platform.mmioBase + ctxOffset i.ctx := by omega
      exact .inl ⟨i, rest, ⟨hc, data, haddr ▸ hp, (if_pos hlen).trans hi⟩, hexec⟩
    · exact .inr hkeep
  · exact .inr ⟨rfl, fun _ => rfl⟩
  · exact .inr ⟨rfl, fun _ => rfl⟩
  · exact absurd hp (hreset rest)
  · exact .inr ⟨rfl, fun _ => rfl⟩

/-- A step that is no block reset leaves the latch alone, or runs a NEW without the override or a SELECT, which
resolves it (R152). -/
theorem step_dispatch (h : step s = .next t) (hreset : NotResetting s) :
    t.dispatch = s.dispatch ∨
    (t.dispatch = (resolve s).2 ∧ ∃ c rest,
      (CommandNext s (.new c) rest ∧ s.forceTable = false) ∨ CommandNext s (.select c) rest) := by
  rcases step_command_or_keeps h hreset with ⟨i, rest, hnext, hexec⟩ | ⟨hkeep, -⟩
  · rcases exec_dispatch hexec with hkeep | ⟨⟨hi, hforce⟩ | hi, hlatch⟩
    · exact .inl hkeep
    · exact .inr ⟨hlatch, i.ctx, rest, .inl ⟨hi ▸ hnext, hforce⟩⟩
    · exact .inr ⟨hlatch, i.ctx, rest, .inr (hi ▸ hnext)⟩
  · exact .inl hkeep

end

/-- Settles O21: `Resolve` alone writes the latch, keeps a resolved one and answers the capability otherwise. -/
theorem latchIsWrittenOnce : Obligations.LatchIsWrittenOnce := by
  refine fun s t h => ⟨fun hreset => ⟨fun e he => ?_, fun e hnone he => ?_⟩, fun rest hp => ?_⟩
  · rcases step_dispatch h hreset with hkeep | ⟨hlatch, -⟩
    · exact hkeep.trans he
    · rw [hlatch, resolve_resolved he]
  · rcases step_dispatch h hreset with hkeep | ⟨hlatch, c, rest, hcmd⟩
    · rw [hkeep, hnone] at he; cases he
    · have hdecision : (resolve s).1 = e := by rwa [hlatch, resolve_snd, Option.some.injEq] at he
      refine ⟨hdecision ▸ resolve_untested hnone, c, ?_⟩
      rcases hcmd with ⟨⟨hc, data, hp, hd⟩, hforce⟩ | ⟨hc, data, hp, hd⟩
      · exact ⟨data, rest, hc, hp, .inl ⟨hd, hforce⟩⟩
      · exact ⟨data, rest, hc, hp, .inr hd⟩
  · rw [step_pending hp] at h
    cases h
    rfl

/-- Settles O23: a CONFIG store writes FORCE_TABLE alone, and only NEW and DROP commit another binding. -/
theorem bindingChangesOnlyAtNewAndDrop : Obligations.BindingChangesOnlyAtNewAndDrop := by
  refine ⟨fun s t w rest hs h => ?_, fun s t c x h hreset hx => ?_⟩
  · rw [step_storeConfig hs] at h
    cases h
    rfl
  · rcases step_command_or_keeps h hreset with ⟨i, rest, ⟨-, data, hp, hd⟩, hexec⟩ | ⟨-, hkeep⟩
    · rcases exec_binding hexec c with hkeep | rfl | rfl
      · exact .inl (State.exists_ctx_of_binding_eq hkeep hx)
      · exact .inr ⟨data, rest, hp, .inl hd⟩
      · exact .inr ⟨data, rest, hp, .inr hd⟩
    · exact .inl (State.exists_ctx_of_binding_eq (hkeep c) hx)

end Sys2Proof.Machine
end

