-- ==== Sys2Proof/Proofs/Commands.lean ====
section
/-! PROOFS. The digest commands (43_digest_commands.md): the buffer operand (R163), the state each command leaves on
every path (R161 to R169), and what a command writes and reads (R171). -/

namespace Sys2Proof.Machine

/-! ## The two ends of a command, as one update of its context -/

/-- Reporting an error sets STICKY (R204). -/
theorem Context.setCode_of_ne_ok (x : Context) {code : ErrorCode} (h : code ≠ .ok) :
    x.setCode code = { x with code := code, sticky := true } := by
  simp [Context.setCode, h]

/-- With a live Digest the UNBOUND check passes (R202). -/
theorem needBound_of_bound {x : Context} (h : x.bound = true) (body : Except ErrorCode Commit) :
    needBound x body = body :=
  if_pos h

/-- Without a live Digest the UNBOUND check fails (R202). -/
theorem needBound_of_unbound {x : Context} (h : x.bound = false) (body : Except ErrorCode Commit) :
    needBound x body = .error .unbound := by
  simp only [needBound, h, Bool.false_eq_true, if_false]

section

variable {i : Instr} {s : State} {x : Context} (hx : s.ctxs[i.ctx]? = some x)

include hx

/-- A command that completes writes the latch, its context and CODE = OK; STICKY stays (R160, R204). -/
theorem exec_commit {e : Commit} (h : commandBody i s x = .ok e) :
    exec i s = .next { s with
      dispatch := e.dispatch
      ctxs := s.ctxs.set i.ctx { e.ctx with code := .ok } } := by
  rw [exec_ok hx h, commitCommand, Context.setCode_ok]

/-- A command that fails writes CODE and STICKY of its context (R203). -/
theorem exec_fail {code : ErrorCode} (h : commandBody i s x = .error code) :
    exec i s = .next { s with ctxs := s.ctxs.set i.ctx { x with code := code, sticky := true } } := by
  rw [exec_error hx h, failCommand, State.setCtx, Context.setCode_of_ne_ok x (commandBody_error_ne_ok h)]

end

/-! ## The buffer operand (R163) -/

/-- No command commits other operands than its context held (R27, R163). -/
theorem commandBody_keeps_operands {i : Instr} {s : State} {x : Context} {e : Commit}
    (h : commandBody i s x = .ok e) : e.ctx.arg0 = x.arg0 ∧ e.ctx.arg1 = x.arg1 := by
  rcases commandBody_ok h with ⟨-, rfl⟩ | ⟨-, -, rfl⟩ | ⟨-, -, v, rfl⟩ | ⟨-, -, rfl⟩ | ⟨-, rfl⟩ | ⟨-, -, rfl⟩ <;>
    exact ⟨rfl, rfl⟩

/-- Every command leaves the operands of its context as they were, completed or not (R163). -/
theorem exec_keeps_operands {i : Instr} {s : State} {x : Context} (hx : s.ctxs[i.ctx]? = some x) :
    ∃ t y, exec i s = .next t ∧ t.ctxs[i.ctx]? = some y ∧ y.arg0 = x.arg0 ∧ y.arg1 = x.arg1 := by
  have hself (y : Context) : (s.ctxs.set i.ctx y)[i.ctx]? = some y := List.getElem?_set_self (lt_length_of_ctx hx)
  cases hb : commandBody i s x with
  | ok e => exact ⟨_, _, exec_commit hx hb, hself _, commandBody_keeps_operands hb⟩
  | error code => exact ⟨_, _, exec_fail hx hb, hself _, rfl, rfl⟩

/-- Settles O26: each boundary case is a buffer that is readable or is not. -/
theorem bufferOperandOfTheWrites : Obligations.BufferOperandOfTheWrites := by
  intro s x
  refine ⟨fun hlen => ?_, fun hlen hpast => writeBuffer_not_readable ?_,
    fun k hk hadm => writeBuffer_not_readable ?_,
    fun hend hadm => writeBuffer_readable (.inr ⟨hend, hadm⟩), fun c i hi hx => ?_⟩
  · have hzero : x.arg1.toNat = 0 := by rw [hlen]; rfl
    rw [writeBuffer_readable (.inl hzero), bufferBytes, hzero]
    rfl
  · rintro (hzero | ⟨hend, -⟩)
    · exact hlen (BitVec.eq_of_toNat_eq hzero)
    · exact absurd hend (Nat.not_le.mpr hpast)
  · rintro (hzero | ⟨-, hall⟩)
    · omega
    · cases hadm.symm.trans (hall k hk)
  · rcases hi with rfl | rfl | rfl
    · exact exec_keeps_operands (i := .write c) hx
    · exact exec_keeps_operands (i := .writeT c) hx
    · exact exec_keeps_operands (i := .writeF c) hx

/-! ## The WRITE commands (R164 to R166) -/

section

variable {s : State} {x : Context} {update : Word → List Byte → Word}

/-- Over a readable buffer a WRITE commits the engine's result (R164 to R166). -/
theorem extendCrc_readable (h : BufferReadable s x) :
    extendCrc s x update = .ok { dispatch := s.dispatch, ctx := { x with crc := update x.crc (bufferBytes s x) } } := by
  simp only [extendCrc, writeBuffer_readable h]

/-- Over a buffer that is not readable a WRITE raises ACCESS_FAULT (R163). -/
theorem extendCrc_not_readable (h : ¬ BufferReadable s x) : extendCrc s x update = .error .accessFault := by
  simp only [extendCrc, writeBuffer_not_readable h]

/-- A WRITE whose checks on the context pass, over a readable buffer. -/
theorem exec_extend {i : Instr} (hx : s.ctxs[i.ctx]? = some x) (hbody : commandBody i s x = extendCrc s x update)
    (h : BufferReadable s x) :
    exec i s = .next { s with
      ctxs := s.ctxs.set i.ctx { x with crc := update x.crc (bufferBytes s x), code := .ok } } :=
  exec_commit hx (hbody.trans (extendCrc_readable h))

/-- A WRITE whose checks on the context pass, over a buffer that is not readable. -/
theorem exec_extend_fault {i : Instr} (hx : s.ctxs[i.ctx]? = some x)
    (hbody : commandBody i s x = extendCrc s x update) (h : ¬ BufferReadable s x) :
    exec i s = .next { s with ctxs := s.ctxs.set i.ctx { x with code := .accessFault, sticky := true } } :=
  exec_fail hx (hbody.trans (extendCrc_not_readable h))

/-- The update of a context bound to FOLD (R164). -/
theorem boundUpdate_of_fold {eng : Option Engine} (h : eng = some .fold) : boundUpdate eng = foldUpdate :=
  funext₂ fun _ _ => if_pos h

/-- The update of a context not bound to FOLD (R164). -/
theorem boundUpdate_of_not_fold {eng : Option Engine} (h : eng ≠ some .fold) : boundUpdate eng = tableUpdate :=
  funext₂ fun _ _ => if_neg h

/-- WRITE.F on a live Digest of a capable block extends through the Fold Engine (R166). -/
theorem commandBody_writeF_capable (c : Nat) (hbound : x.bound = true) (hcaps : s.caps = 0b111#3) :
    commandBody (.writeF c) s x = extendCrc s x foldUpdate :=
  (needBound_of_bound hbound _).trans (if_pos ((foldOk_iff _).mpr hcaps))

/-- WRITE.F on a live Digest of a block that is not capable (R166). -/
theorem commandBody_writeF_incapable (c : Nat) (hbound : x.bound = true) (hcaps : s.caps ≠ 0b111#3) :
    commandBody (.writeF c) s x = .error .foldUnavailable :=
  (needBound_of_bound hbound _).trans (if_neg (mt (foldOk_iff _).mp hcaps))

end

/-- Settles O27: the binding picks the engine, and the buffer decides between the result and ACCESS_FAULT. -/
theorem writeExtendsThroughTheBoundEngine : Obligations.WriteExtendsThroughTheBoundEngine := by
  intro s c x hx
  have hbody (hbound : x.bound = true) : commandBody (.write c) s x = extendCrc s x (boundUpdate x.eng) :=
    needBound_of_bound hbound _
  refine ⟨decode_encodeWord (.write c), fun hbound hbuf heng => ?_, fun hbound hbuf heng => ?_,
    fun hbound => exec_fail (i := .write c) hx (needBound_of_unbound hbound _),
    fun hbound hbuf => exec_extend_fault (i := .write c) hx (hbody hbound) hbuf⟩
  · exact exec_extend (i := .write c) hx (boundUpdate_of_fold heng ▸ hbody hbound) hbuf
  · exact exec_extend (i := .write c) hx (boundUpdate_of_not_fold heng ▸ hbody hbound) hbuf

/-- Settles O28: the binding is not looked at, and the buffer decides. -/
theorem writeTExtendsThroughTheTableEngine : Obligations.WriteTExtendsThroughTheTableEngine := by
  intro s c x hx
  have hbody (hbound : x.bound = true) : commandBody (.writeT c) s x = extendCrc s x tableUpdate :=
    needBound_of_bound hbound _
  exact ⟨decode_encodeWord (.writeT c),
    fun hbound hbuf => exec_extend (i := .writeT c) hx (hbody hbound) hbuf,
    fun hbound => exec_fail (i := .writeT c) hx (needBound_of_unbound hbound _),
    fun hbound hbuf => exec_extend_fault (i := .writeT c) hx (hbody hbound) hbuf⟩

/-- Settles O29: UNBOUND, then the capability, then the buffer, in the order of R202. -/
theorem writeFExtendsThroughTheFoldEngine : Obligations.WriteFExtendsThroughTheFoldEngine := by
  intro s c x hx
  exact ⟨decode_encodeWord (.writeF c),
    fun hbound hcaps hbuf =>
      exec_extend (i := .writeF c) hx (commandBody_writeF_capable c hbound hcaps) hbuf,
    fun hbound => exec_fail (i := .writeF c) hx (needBound_of_unbound hbound _),
    fun hbound hcaps => exec_fail (i := .writeF c) hx (commandBody_writeF_incapable c hbound hcaps),
    fun hbound hcaps hbuf =>
      exec_extend_fault (i := .writeF c) hx (commandBody_writeF_capable c hbound hcaps) hbuf⟩

/-! ## What a command writes and what it reads (R171) -/

/-- Another latch and other contents of one context leave everything else. -/
theorem sameOutside_set (s : State) (c : Nat) (latch : Option Engine) (x : Context) :
    SameOutside c s { s with dispatch := latch, ctxs := s.ctxs.set c x } :=
  ⟨rfl, rfl, rfl, rfl, fun _ => rfl, rfl, rfl, rfl, List.length_set, fun _ hc => List.getElem?_set_ne hc.symm⟩

/-- A command writes nothing but its own context and the latch. -/
theorem exec_sameOutside {i : Instr} {s t : State} (h : exec i s = .next t) : SameOutside i.ctx s t := by
  rcases exec_cases h with ⟨-, rfl⟩ | ⟨x, -, ⟨e, -, rfl⟩ | ⟨code, -, rfl⟩⟩
  · exact ⟨rfl, rfl, rfl, rfl, fun _ => rfl, rfl, rfl, rfl, rfl, fun _ _ => rfl⟩
  · exact sameOutside_set s i.ctx e.dispatch _
  · exact sameOutside_set s i.ctx s.dispatch _

/-- A command writes the latch only while it is untested, as a NEW without the override or a SELECT (R152). -/
theorem exec_latch {i : Instr} {s t : State} (h : exec i s = .next t) :
    t.dispatch = s.dispatch ∨
      s.dispatch = none ∧ (i = .new i.ctx ∧ s.forceTable = false ∨ i = .select i.ctx) := by
  rcases exec_dispatch h with hkeep | ⟨hi, hlatch⟩
  · exact .inl hkeep
  · cases hd : s.dispatch with
    | none => exact .inr ⟨rfl, hi⟩
    | some e => exact .inl (by rw [hlatch, resolve_resolved hd])

/-- Two states that agree on what a command may read beside its own context: CONFIG, CAPS, the latch, the platform
and the bytes of data memory (R171). -/
structure SameReadable (s t : State) : Prop where
  forceTable : s.forceTable = t.forceTable
  caps : s.caps = t.caps
  dispatch : s.dispatch = t.dispatch
  platform : s.platform = t.platform
  dmem : ∀ a, readByte s.dmem a = readByte t.dmem a

namespace SameReadable

variable {s t : State} (h : SameReadable s t)

include h

/-- `Resolve` reads CAPS and the latch (R151). -/
theorem resolve_eq : resolve s = resolve t := by
  simp only [resolve, h.dispatch, h.caps]

/-- The binding of NEW reads CONFIG and what `Resolve` reads (R154). -/
theorem bindNew_eq : bindNew s = bindNew t := by
  simp only [bindNew, h.forceTable, h.dispatch, h.resolve_eq]

/-- The buffer operand reads the platform and data memory (R163). -/
theorem writeBuffer_eq (x : Context) : writeBuffer s x = writeBuffer t x := by
  simp only [writeBuffer, h.platform, memRead_eq_map, h.dmem]

/-- A WRITE past its checks reads the buffer operand and keeps the latch (R164 to R166). -/
theorem extendCrc_eq (x : Context) (update : Word → List Byte → Word) :
    extendCrc s x update = extendCrc t x update := by
  simp only [extendCrc, h.writeBuffer_eq, h.dispatch]

/-- On the same contents of its context a command commits or raises the same. -/
theorem commandBody_eq (i : Instr) (x : Context) : commandBody i s x = commandBody i t x := by
  cases i with
  | new => simp only [commandBody, h.bindNew_eq]
  | select => simp only [commandBody, h.resolve_eq]
  | write | writeT => simp only [commandBody, h.extendCrc_eq]
  | writeF => simp only [commandBody, h.caps, h.extendCrc_eq]
  | reset | sum | drop => simp only [commandBody, h.dispatch]

end SameReadable

/-- A command leaves the same context and the same latch in two states that agree on what it may read. -/
theorem exec_agrees {i : Instr} {s₁ s₂ t₁ t₂ : State} (h₁ : exec i s₁ = .next t₁) (h₂ : exec i s₂ = .next t₂)
    (hctx : s₁.ctxs[i.ctx]? = s₂.ctxs[i.ctx]?) (hread : SameReadable s₁ s₂) :
    t₁.ctxs[i.ctx]? = t₂.ctxs[i.ctx]? ∧ t₁.dispatch = t₂.dispatch := by
  cases hx₁ : s₁.ctxs[i.ctx]? with
  | none =>
    have hx₂ := hctx.symm.trans hx₁
    rw [exec_eq_runCommand, runCommand_absent hx₁] at h₁
    rw [exec_eq_runCommand, runCommand_absent hx₂] at h₂
    cases h₁
    cases h₂
    exact ⟨hctx, hread.dispatch⟩
  | some x =>
    have hx₂ := hctx.symm.trans hx₁
    have hset (y : Context) : (s₁.ctxs.set i.ctx y)[i.ctx]? = (s₂.ctxs.set i.ctx y)[i.ctx]? := by
      rw [List.getElem?_set_self (lt_length_of_ctx hx₁), List.getElem?_set_self (lt_length_of_ctx hx₂)]
    cases hb : commandBody i s₁ x with
    | ok e =>
      rw [exec_ok hx₁ hb] at h₁
      rw [exec_ok hx₂ (hread.commandBody_eq i x ▸ hb)] at h₂
      cases h₁
      cases h₂
      exact ⟨hset _, rfl⟩
    | error code =>
      rw [exec_error hx₁ hb] at h₁
      rw [exec_error hx₂ (hread.commandBody_eq i x ▸ hb)] at h₂
      cases h₁
      cases h₂
      exact ⟨hset _, hread.dispatch⟩

/-- Settles O39, by the frame of a command, its rule for the latch, and its agreement on two states. -/
theorem commandTouchesOnlyItsContext : Obligations.CommandTouchesOnlyItsContext :=
  ⟨fun _ _ _ h => ⟨exec_sameOutside h, exec_latch h⟩,
    fun _ _ _ _ _ h₁ h₂ hctx hforce hcaps hlatch hplatform hmem =>
      exec_agrees h₁ h₂ hctx ⟨hforce, hcaps, hlatch, hplatform, hmem⟩⟩

/-! ## NEW and SELECT, which probe (R161, R168) -/

/-- `Resolve` answers and latches the resolved latch, or the capability decision where the latch is untested
(R151). -/
theorem resolve_eq_of_decision {s : State} {e : Engine}
    (h : s.dispatch = some e ∨ s.dispatch = none ∧ (e = .fold ↔ s.caps = 0b111#3)) : resolve s = (e, some e) := by
  rcases h with hsome | ⟨hnone, hcaps⟩
  · exact resolve_resolved hsome
  · have hfold : (resolve s).1 = .fold ↔ e = .fold := (resolve_untested hnone).trans hcaps.symm
    have hfst : (resolve s).1 = e := by
      cases e with
      | fold => exact hfold.mpr rfl
      | table =>
        cases hr : (resolve s).1 with
        | fold => cases hfold.mp hr
        | table => rfl
    exact Prod.ext hfst (by rw [resolve_snd, hfst])

/-- The code of an engine as RESULT and DISPATCH show it (R23, R168). -/
theorem engineBits_setWidth (e : Engine) :
    (engineBits (some e)).setWidth 64 = if e = .fold then (1 : Word) else 2 := by
  cases e <;> rfl

/-- Settles O24: NEW commits what `bindNew` answers, with and without the override. -/
theorem newMakesAFreshDigest : Obligations.NewMakesAFreshDigest := by
  intro s c x hx
  have hnew := exec_commit (i := .new c) hx rfl
  refine ⟨decode_encodeWord (.new c), fun hforce => ?_, fun hforce e he => ?_⟩
  · rw [bindNew_forced hforce] at hnew
    exact hnew
  · rw [bindNew_unforced hforce, resolve_eq_of_decision he] at hnew
    exact hnew

/-- Settles O31: SELECT commits what `resolve` answers. -/
theorem selectReportsTheDecision : Obligations.SelectReportsTheDecision := by
  intro s c x e hx he
  have hselect := exec_commit (i := .select c) hx rfl
  rw [resolve_eq_of_decision he, engineBits_setWidth] at hselect
  exact ⟨decode_encodeWord (.select c), hselect⟩

/-! ## RESET, SUM and DROP, which need a live Digest (R162, R167, R169) -/

/-- Settles O25: the UNBOUND check, then the commit of `INIT`. -/
theorem resetReloadsInit : Obligations.ResetReloadsInit := fun _ c _ hx =>
  ⟨decode_encodeWord (.reset c),
    fun hbound => exec_commit (i := .reset c) hx (needBound_of_bound hbound _),
    fun hbound => exec_fail (i := .reset c) hx (needBound_of_unbound hbound _)⟩

/-- Settles O30: the UNBOUND check, then the commit of the masked register to RESULT. -/
theorem sumReturnsTheChecksum : Obligations.SumReturnsTheChecksum := fun _ c _ hx =>
  ⟨decode_encodeWord (.sum c),
    fun hbound => exec_commit (i := .sum c) hx (needBound_of_bound hbound _),
    fun hbound => exec_fail (i := .sum c) hx (needBound_of_unbound hbound _)⟩

/-- Settles O32: the UNBOUND check, then the commit of an unbound context that holds `INIT`. -/
theorem dropEndsTheDigest : Obligations.DropEndsTheDigest := fun _ c _ hx =>
  ⟨decode_encodeWord (.drop c),
    fun hbound => exec_commit (i := .drop c) hx (needBound_of_bound hbound _),
    fun hbound => exec_fail (i := .drop c) hx (needBound_of_unbound hbound _)⟩

end Sys2Proof.Machine
end

