-- ==== Sys2Proof/Proofs/Exceptions.lean ====
section
/-! PROOFS. Errors and refusals (60_exceptions.md): which accesses are refused (R214), the code a command reports and
the order of the errors (R200, R202), what a failed command writes (R203), and what sets and clears STICKY (R204). -/

namespace Sys2Proof.Machine

/-! ## Refused accesses (R214) -/

section

variable {s : State} {addr width : Nat}

/-- An admitted access passes the check (R58). -/
theorem checkAccess_of_admitted (h : AdmittedAccess s addr width) :
    checkAccess s addr width = .ok (addr - s.platform.mmioBase) := by
  rcases checkAccess_cases s addr width with ⟨-, hc⟩ | ⟨hn, -⟩
  · exact hc
  · exact absurd h hn

/-- An access that is not admitted is refused by one of the three names, where a failed check refuses it (R214). -/
theorem refused_of_not_admitted {o : Host.Outcome State Fault Refusal} (h : ¬ AdmittedAccess s addr width)
    (ho : ∀ e, checkAccess s addr width = .error e → o = .refused e) :
    o = .refused .accessWidth ∨ o = .refused .accessOutsideWindow ∨ o = .refused .accessMisaligned := by
  rcases checkAccess_cases s addr width with ⟨ha, -⟩ | ⟨-, e, hc, rfl | rfl | rfl⟩
  · exact absurd ha h
  · exact .inl (ho _ hc)
  · exact .inr (.inl (ho _ hc))
  · exact .inr (.inr (ho _ hc))

end

/-- A command answers a next state, whatever its body does (R206). -/
theorem runCommand_next (s : State) (c : Nat) (body : Context → Except ErrorCode Commit) :
    ∃ t, runCommand s c body = .next t := by
  rcases runCommand_cases s c body with ⟨-, h⟩ | ⟨x, -, ⟨e, -, h⟩ | ⟨code, -, h⟩⟩ <;> exact ⟨_, h⟩

/-- A store to CMD answers a next state, for a command word and for an illegal one. -/
theorem storeCmd_next (s : State) (c : Nat) (w : Word) : ∃ t, storeCmd s c w = .next t := by
  unfold storeCmd
  split
  · rw [exec_eq_runCommand]; exact runCommand_next ..
  · exact runCommand_next ..

/-- A store to any window register answers a next state. -/
theorem storeReg_next (s : State) (r : WindowReg) (w : Word) : ∃ t, storeReg s r w = .next t := by
  cases r with
  | cmd c => exact storeCmd_next s c w
  | config | arg0 | arg1 | caps | dispatch | nctx | result | status | reserved => exact ⟨_, rfl⟩

/-- Settles O7: the check at the window decides, and what stands behind it always answers a next state. -/
theorem onlyUnadmittedAccessesAreRefused : Obligations.OnlyUnadmittedAccessesAreRefused := by
  refine ⟨fun s addr data rest hp => ?_, fun s addr width rest hp => ?_⟩ <;> rw [step_pending hp]
  · refine ⟨fun h => refused_of_not_admitted (s := { s with pending := rest }) h fun e hc => ?_, fun h => ?_⟩
    · simp only [performAction, hc]
    · simp only [performAction, checkAccess_of_admitted (s := { s with pending := rest }) h]
      exact storeReg_next ..
  · refine ⟨fun h => refused_of_not_admitted (s := { s with pending := rest }) h fun e hc => ?_, fun h => ?_⟩
    · simp only [performAction, hc]
    · simp only [performAction, checkAccess_of_admitted (s := { s with pending := rest }) h]
      exact ⟨_, rfl⟩

/-! ## The code a command reports (R200, R202) -/

/-- The code that the result of a command's body leaves in STATUS. -/
def resultCode : Except ErrorCode Commit → ErrorCode
  | .ok _ => .ok
  | .error code => code

@[simp] theorem resultCode_ok (e : Commit) : resultCode (.ok e) = .ok := rfl
@[simp] theorem resultCode_error (code : ErrorCode) : resultCode (.error code) = code := rfl

/-- The UNBOUND check comes before the other errors of its command. -/
theorem resultCode_needBound (x : Context) (body : Except ErrorCode Commit) :
    resultCode (needBound x body) = if x.bound = false then .unbound else resultCode body := by
  cases hb : x.bound with
  | true => rw [needBound_of_bound hb]; rfl
  | false => rw [needBound_of_unbound hb]; rfl

/-- Past the checks on the context, a WRITE reports ACCESS_FAULT exactly for a buffer that is not readable. -/
theorem resultCode_extendCrc (s : State) (x : Context) (update : Word → List Byte → Word)
    [Decidable (BufferReadable s x)] :
    resultCode (extendCrc s x update) = if BufferReadable s x then .ok else .accessFault := by
  split
  next h => rw [extendCrc_readable h]; rfl
  next h => rw [extendCrc_not_readable h]; rfl

/-- R202 past ILLEGAL_COMMAND, which no command word raises: the first error that applies. -/
theorem resultCode_commandBody (i : Instr) (s : State) (x : Context) [Decidable (BufferReadable s x)] :
    resultCode (commandBody i s x) =
      if x.bound = false ∧ i ≠ .new i.ctx ∧ i ≠ .select i.ctx then .unbound
      else if i = .writeF i.ctx ∧ s.caps ≠ 0b111#3 then .foldUnavailable
      else if (i = .write i.ctx ∨ i = .writeT i.ctx ∨ i = .writeF i.ctx) ∧ ¬ BufferReadable s x then .accessFault
      else .ok := by
  cases i with
  | new | select => simp [commandBody, Instr.ctx]
  | reset | sum | drop => simp [commandBody, Instr.ctx, resultCode_needBound]
  | write | writeT => simp [commandBody, Instr.ctx, resultCode_needBound, resultCode_extendCrc]
  | writeF =>
    by_cases hcaps : s.caps = 0b111#3 <;>
      simp [commandBody, Instr.ctx, resultCode_needBound, resultCode_extendCrc, foldOk_iff, hcaps]

section

variable {i : Instr} {s : State} {x : Context}

/-- When a command raises UNBOUND (R200). -/
theorem resultCode_eq_unbound_iff :
    resultCode (commandBody i s x) = .unbound ↔ x.bound = false ∧ i ≠ .new i.ctx ∧ i ≠ .select i.ctx := by
  classical
  rw [resultCode_commandBody]
  split_ifs with hunbound <;> simp [hunbound]

/-- When a command raises FOLD_UNAVAILABLE (R200): only WRITE.F, and past the UNBOUND check. -/
theorem resultCode_eq_foldUnavailable_iff :
    resultCode (commandBody i s x) = .foldUnavailable ↔ i = .writeF i.ctx ∧ x.bound = true ∧ s.caps ≠ 0b111#3 := by
  classical
  rw [resultCode_commandBody]
  cases i with
  | writeF => simp [Instr.ctx, ite_eq_iff]
  | new | select => simp [Instr.ctx]
  | reset | write | writeT | sum | drop => simp [Instr.ctx, ite_eq_iff]

/-- When a command raises ACCESS_FAULT (R200): only the WRITE commands, past their checks on the context. -/
theorem resultCode_eq_accessFault_iff :
    resultCode (commandBody i s x) = .accessFault ↔ x.bound = true ∧ ¬ BufferReadable s x ∧
      (i = .write i.ctx ∨ i = .writeT i.ctx ∨ i = .writeF i.ctx ∧ s.caps = 0b111#3) := by
  classical
  rw [resultCode_commandBody]
  cases i with
  | write | writeT => simp [Instr.ctx, ite_eq_iff]
  | writeF => simp [Instr.ctx, ite_eq_iff, and_comm]
  | new | select => simp [Instr.ctx]
  | reset | sum | drop => simp [Instr.ctx, ite_eq_iff]

/-- When a command completes. -/
theorem resultCode_eq_ok_iff :
    resultCode (commandBody i s x) = .ok ↔ i = .new i.ctx ∨ i = .select i.ctx ∨
      x.bound = true ∧ (i = .reset i.ctx ∨ i = .sum i.ctx ∨ i = .drop i.ctx ∨
        (i = .write i.ctx ∨ i = .writeT i.ctx ∨ i = .writeF i.ctx ∧ s.caps = 0b111#3) ∧ BufferReadable s x) := by
  classical
  rw [resultCode_commandBody]
  cases i with
  | new | select => simp [Instr.ctx]
  | reset | sum | drop => simp [Instr.ctx]
  | write | writeT | writeF => simp [Instr.ctx, ite_eq_iff]

/-- No command word raises ILLEGAL_COMMAND (R75). -/
theorem resultCode_ne_illegalCommand : resultCode (commandBody i s x) ≠ .illegalCommand := by
  classical
  rw [resultCode_commandBody]
  split_ifs <;> decide

/-- STICKY stays where a command completes (R204). -/
theorem commandBody_keeps_sticky {e : Commit} (h : commandBody i s x = .ok e) : e.ctx.sticky = x.sticky := by
  rcases commandBody_ok h with ⟨-, rfl⟩ | ⟨-, -, rfl⟩ | ⟨-, -, v, rfl⟩ | ⟨-, -, rfl⟩ | ⟨-, rfl⟩ | ⟨-, -, rfl⟩ <;> rfl

/-- A context that a command writes holds what it wrote. -/
theorem getElem?_set_ctx {c : Nat} (hx : s.ctxs[c]? = some x) (y : Context) : (s.ctxs.set c y)[c]? = some y :=
  List.getElem?_set_self (lt_length_of_ctx hx)

/-- Every command ends by writing CODE, and sets STICKY exactly when it failed (R204). -/
theorem exec_reports (hx : s.ctxs[i.ctx]? = some x) :
    ∃ t y, exec i s = .next t ∧ t.ctxs[i.ctx]? = some y ∧ y.code = resultCode (commandBody i s x) ∧
      y.sticky = (x.sticky || decide (y.code ≠ .ok)) := by
  cases hb : commandBody i s x with
  | ok e => exact ⟨_, _, exec_ok hx hb, getElem?_set_ctx hx _, rfl, by simp [commandBody_keeps_sticky hb]⟩
  | error code => exact ⟨_, _, exec_error hx hb, getElem?_set_ctx hx _, rfl, rfl⟩

/-- A command leaves in CODE the result code of its body. -/
theorem exec_code (hx : s.ctxs[i.ctx]? = some x) {code : ErrorCode}
    (h : resultCode (commandBody i s x) = code) :
    ∃ t y, exec i s = .next t ∧ t.ctxs[i.ctx]? = some y ∧ y.code = code := by
  obtain ⟨t, y, ht, hy, hcode, -⟩ := exec_reports hx
  exact ⟨t, y, ht, hy, hcode.trans h⟩

/-- An illegal word reports ILLEGAL_COMMAND and sets STICKY (R75, R204). -/
theorem storeCmd_illegal_reports {c : Nat} {w : Word} {e : DecodeError} (hx : s.ctxs[c]? = some x)
    (h : decode c w = .error e) :
    ∃ t y, storeCmd s c w = .next t ∧ t.ctxs[c]? = some y ∧ y.code = .illegalCommand ∧ y.sticky = true :=
  ⟨_, _, storeCmd_error hx h, getElem?_set_ctx hx _, rfl, by simp⟩

end

/-- Settles O34: each level of R202 is a condition under which the result code is its error. -/
theorem errorPriority : Obligations.ErrorPriority := by
  refine fun s c x hx => ⟨fun w e he => ?_, fun i hi hbound => ?_, fun hbound hcaps => ?_, fun i hi hbound hbuf => ?_⟩
  · obtain ⟨t, y, ht, hy, hcode, -⟩ := storeCmd_illegal_reports hx he
    exact ⟨t, y, ht, hy, hcode⟩
  · obtain rfl : i.ctx = c := by rcases hi with rfl | rfl | rfl | rfl | rfl | rfl <;> rfl
    refine exec_code hx (resultCode_eq_unbound_iff.mpr ⟨hbound, ?_⟩)
    rcases hi with hi | hi | hi | hi | hi | hi <;> rw [hi] <;> exact ⟨nofun, nofun⟩
  · exact exec_code (i := .writeF c) hx (resultCode_eq_foldUnavailable_iff.mpr ⟨rfl, hbound, hcaps⟩)
  · obtain rfl : i.ctx = c := by rcases hi with rfl | rfl | ⟨rfl, -⟩ <;> rfl
    exact exec_code hx (resultCode_eq_accessFault_iff.mpr ⟨hbound, hbuf, hi⟩)

/-- Settles O35: the values of `ErrorCode.bits`, and when the result code of a command is each code. -/
theorem codesEachCommandRaises : Obligations.CodesEachCommandRaises := by
  refine ⟨⟨rfl, rfl, rfl, rfl, rfl, fun e => ?_⟩, fun s c w x e hx he => ?_, fun i s x hx => ?_⟩
  · cases e <;> decide
  · obtain ⟨t, y, ht, hy, hcode, -⟩ := storeCmd_illegal_reports hx he
    exact ⟨t, y, ht, hy, hcode⟩
  · obtain ⟨t, y, ht, hy, hcode, -⟩ := exec_reports hx
    refine ⟨t, y, ht, hy, ?_⟩
    rw [hcode]
    exact ⟨resultCode_ne_illegalCommand, resultCode_eq_unbound_iff, resultCode_eq_foldUnavailable_iff,
      resultCode_eq_accessFault_iff⟩

/-! ## What a failed command writes (R203) -/

section

variable {i : Instr} {s t : State} {c : Nat} {x y : Context}

/-- A report of an error writes CODE and STICKY of its context and nothing else, in terms of the context it leaves. -/
theorem failCommand_eq_of_reported {code : ErrorCode} (hx : s.ctxs[c]? = some x)
    (hy : (failCommand s c x code).ctxs[c]? = some y) (hfail : y.code ≠ .ok) :
    failCommand s c x code = { s with ctxs := s.ctxs.set c { x with code := y.code, sticky := true } } := by
  obtain rfl : x.setCode code = y := Option.some.inj ((getElem?_set_ctx hx _).symm.trans hy)
  rw [failCommand, State.setCtx, Context.setCode_code, Context.setCode_of_ne_ok x (code := code) hfail]

/-- A command that leaves an error in CODE is one that failed, and writes nothing else than its STATUS (R203). -/
theorem exec_eq_of_reported (h : exec i s = .next t) (hx : s.ctxs[i.ctx]? = some x) (hy : t.ctxs[i.ctx]? = some y)
    (hfail : y.code ≠ .ok) :
    t = { s with ctxs := s.ctxs.set i.ctx { x with code := y.code, sticky := true } } := by
  rcases exec_cases h with ⟨habsent, -⟩ | ⟨x', hx', hcommit⟩
  · cases habsent.symm.trans hx
  obtain rfl : x' = x := Option.some.inj (hx'.symm.trans hx)
  rcases hcommit with ⟨e, -, rfl⟩ | ⟨code, -, rfl⟩
  · obtain rfl : e.ctx.setCode .ok = y := Option.some.inj ((getElem?_set_ctx hx _).symm.trans hy)
    exact absurd rfl hfail
  · exact failCommand_eq_of_reported hx hy hfail

end

/-- Settles O36: a command word by the cases of `exec`, and an illegal word by `failCommand`. -/
theorem failedCommandChangesOnlyStatus : Obligations.FailedCommandChangesOnlyStatus := by
  refine ⟨fun i s t x y h hx hy hfail => exec_eq_of_reported h hx hy hfail, fun s t c w x y h hx hy hfail => ?_⟩
  rcases storeCmd_cases h with ⟨i, hd, hexec⟩ | ⟨habsent, -⟩ | ⟨x', hx', rfl⟩
  · obtain rfl := decode_ctx hd
    exact exec_eq_of_reported hexec hx hy hfail
  · cases habsent.symm.trans hx
  · obtain rfl : x' = x := Option.some.inj (hx'.symm.trans hx)
    exact failCommand_eq_of_reported hx hy hfail

/-! ## What sets and what clears STICKY (R204) -/

/-- Every context whose STICKY is set in `s` has it set in `t`. -/
def KeepsSticky (s t : State) : Prop :=
  ∀ (c : Nat) (x : Context), s.ctxs[c]? = some x → x.sticky = true → ∃ y, t.ctxs[c]? = some y ∧ y.sticky = true

section

variable {i : Instr} {s t : State} {c : Nat} {x : Context}

/-- The same contexts have the same STICKY. -/
theorem keepsSticky_of_ctxs_eq (h : t.ctxs = s.ctxs) : KeepsSticky s t :=
  fun _ x hx hsticky => ⟨x, h ▸ hx, hsticky⟩

/-- A write of one context keeps STICKY everywhere, where it does not clear that context's. -/
theorem keepsSticky_of_set {y : Context} (hx : s.ctxs[c]? = some x) (ht : t.ctxs = s.ctxs.set c y)
    (hkeep : x.sticky = true → y.sticky = true) : KeepsSticky s t := by
  intro c' x' hx' hsticky
  by_cases hc : c = c'
  · subst hc
    obtain rfl : x' = x := Option.some.inj (hx'.symm.trans hx)
    exact ⟨y, ht ▸ getElem?_set_ctx hx y, hkeep hsticky⟩
  · exact ⟨x', by rw [ht, List.getElem?_set_ne hc, hx'], hsticky⟩

/-- Reporting a code does not clear STICKY. -/
theorem Context.setCode_keeps_sticky (code : ErrorCode) (h : x.sticky = true) : (x.setCode code).sticky = true := by
  rw [Context.setCode_sticky, h, Bool.true_or]

/-- A command does not clear STICKY. -/
theorem exec_keepsSticky (h : exec i s = .next t) : KeepsSticky s t := by
  rcases exec_cases h with ⟨-, rfl⟩ | ⟨x, hx, ⟨e, he, rfl⟩ | ⟨code, -, rfl⟩⟩
  · exact keepsSticky_of_ctxs_eq rfl
  · exact keepsSticky_of_set hx rfl fun hs => Context.setCode_keeps_sticky _ ((commandBody_keeps_sticky he).trans hs)
  · exact keepsSticky_of_set hx rfl (Context.setCode_keeps_sticky code)

/-- A store to an operand register does not clear STICKY. -/
theorem storeField_keepsSticky {f : Context → Context} (hf : ∀ x, (f x).sticky = x.sticky) :
    KeepsSticky s (storeField s c f) := by
  cases hx : s.ctxs[c]? with
  | none => exact keepsSticky_of_ctxs_eq (by simp only [storeField, hx])
  | some x => exact keepsSticky_of_set hx (by rw [storeField_eq f hx]) (hf x).trans

/-- A store to a window register does not clear STICKY. -/
theorem storeReg_keepsSticky {r : WindowReg} {w : Word} (h : storeReg s r w = .next t) : KeepsSticky s t := by
  rcases storeReg_cases h with ⟨c, -, hcmd⟩ | ⟨-, rfl⟩ | ⟨c, -, rfl⟩ | ⟨c, -, rfl⟩ | rfl
  · rcases storeCmd_cases hcmd with ⟨i, -, hexec⟩ | ⟨-, rfl⟩ | ⟨x, hx, rfl⟩
    · exact exec_keepsSticky hexec
    · exact keepsSticky_of_ctxs_eq rfl
    · exact keepsSticky_of_set hx rfl (Context.setCode_keeps_sticky _)
  · exact keepsSticky_of_ctxs_eq rfl
  · exact storeField_keepsSticky fun _ => rfl
  · exact storeField_keepsSticky fun _ => rfl
  · exact keepsSticky_of_ctxs_eq rfl

/-- No step but block reset clears STICKY (R204). -/
theorem step_keepsSticky (h : step s = .next t) (hreset : NotResetting s) : KeepsSticky s t := by
  rcases step_cases h with ⟨-, rfl⟩ | ⟨addr, data, rest, -, -, hstore⟩ | ⟨addr, width, rest, v, -, -, rfl⟩ |
    ⟨a, v, rest, -, -, rfl⟩ | ⟨rest, hp, -⟩ | ⟨v, rest, -, rfl⟩
  · exact keepsSticky_of_ctxs_eq rfl
  · exact storeReg_keepsSticky (s := { s with pending := rest }) hstore
  · exact keepsSticky_of_ctxs_eq rfl
  · exact keepsSticky_of_ctxs_eq rfl
  · exact absurd hp (hreset rest)
  · exact keepsSticky_of_ctxs_eq rfl

/-- Block reset clears STICKY of every context (R204, R220). -/
theorem blockReset_sticky (s : State) : ∀ y ∈ (blockReset s).ctxs, y.sticky = false := by
  intro y hy
  obtain ⟨x, -, rfl⟩ := List.mem_map.mp hy
  rfl

/-- A store to STATUS of a context, present or absent, has no effect (R60, R204). -/
theorem step_storeStatus {w : Word} {rest : List HostAction} (hs : StoresNext s (ctxOffset c + 0x20) w rest)
    (hc : c < 64) : step s = .next { s with pending := rest } := by
  have hignored : IgnoresStores (windowReg s.ctxs.length (ctxOffset c + 0x20)) := by
    rcases lt_or_ge c s.ctxs.length with hpresent | habsent
    · rw [windowReg_ctx hpresent (by decide)]; trivial
    · rw [windowReg_past (by simp only [ctxOffset]; omega)]; trivial
  rw [step_storesNext_ctx hs hc (by decide) (by decide), storeReg_of_ignoresStores _ hignored]

end

/-! ## The views of STATUS (R29) -/

/-- Bit 16 of STATUS is BOUND (R29). -/
theorem statusWord_bound (x : Context) : x.statusWord.getLsbD 16 = x.bound := by
  simp [Context.statusWord]

/-- Bits 18:17 of STATUS are ENG (R29). -/
theorem statusWord_eng (x : Context) : x.statusWord.extractLsb' 17 2 = engineBits x.eng := by
  refine BitVec.eq_of_getLsbD_eq fun i hi => ?_
  have hcode : x.code.bits.getLsbD (17 + i) = false := BitVec.getLsbD_of_ge _ _ (by omega)
  simp [Context.statusWord, hi, hcode, show 17 + i - 8 ≠ 0 by omega, show 17 + i - 16 ≠ 0 by omega,
    show 17 + i < 64 by omega]

/-- Settles O37: what each command reports by its result code, and STICKY by `KeepsSticky`, which only block reset
breaks. -/
theorem everyCommandReportsAndStickyStays : Obligations.EveryCommandReportsAndStickyStays := by
  refine ⟨fun i s x hx => ?_, fun s c w x e hx he => storeCmd_illegal_reports hx he,
    fun s t c x h hreset hx hsticky => step_keepsSticky h hreset c x hx hsticky,
    fun s rest hp => ⟨_, step_pending hp, blockReset_sticky _⟩,
    fun s c w rest hc hs => step_storeStatus hs hc, fun x => ⟨statusWord_bound x, statusWord_eng x⟩⟩
  obtain ⟨t, y, ht, hy, hcode, hsticky⟩ := exec_reports hx
  refine ⟨t, y, ht, hy, hsticky, ?_⟩
  rw [hcode]
  exact ⟨fun hbound hnew hselect => resultCode_eq_unbound_iff.mpr ⟨hbound, hnew, hselect⟩,
    fun hbound hi hcaps => resultCode_eq_foldUnavailable_iff.mpr ⟨hi, hbound, hcaps⟩,
    fun hbound hi hbuf => resultCode_eq_accessFault_iff.mpr ⟨hbound, hbuf, hi⟩, resultCode_eq_ok_iff.mpr⟩

end Sys2Proof.Machine
end

