-- ==== Sys2Proof/Proofs/Reset.lean ====
section
/-! PROOFS. Block reset and the capability input (70_reset_and_hazards.md): CAPS changes at block reset alone (R222),
and what block reset leaves in every register (R220). -/

namespace Sys2Proof.Machine

/-! ## Steps that keep CAPS (R222) -/

section

variable {s t : State}

/-- A store to CMD, of a command word or of an illegal word, keeps CAPS. -/
theorem storeCmd_caps {c : Nat} {w : Word} (h : storeCmd s c w = .next t) : t.caps = s.caps := by
  rcases storeCmd_cases h with ⟨i, -, hexec⟩ | ⟨-, rfl⟩ | ⟨x, -, rfl⟩
  · obtain ⟨-, -, hcaps, -⟩ := exec_sameOutside hexec
    exact hcaps
  · rfl
  · exact failCommand_caps s c x .illegalCommand

/-- A store to an operand register keeps CAPS. -/
theorem storeField_caps (s : State) (c : Nat) (f : Context → Context) : (storeField s c f).caps = s.caps := by
  obtain ⟨-, hcaps, -⟩ := storeField_frame s c f
  exact hcaps

/-- A store to a window register keeps CAPS. -/
theorem storeReg_caps {r : WindowReg} {w : Word} (h : storeReg s r w = .next t) : t.caps = s.caps := by
  rcases storeReg_cases h with ⟨c, -, hcmd⟩ | ⟨-, rfl⟩ | ⟨c, -, rfl⟩ | ⟨c, -, rfl⟩ | rfl
  · exact storeCmd_caps hcmd
  · rfl
  · exact storeField_caps s c _
  · exact storeField_caps s c _
  · rfl

/-- No step but block reset changes CAPS (R222). -/
theorem step_caps (h : step s = .next t) (hreset : NotResetting s) : t.caps = s.caps := by
  rcases step_cases h with ⟨-, rfl⟩ | ⟨addr, data, rest, -, -, hstore⟩ | ⟨addr, width, rest, v, -, -, rfl⟩ |
    ⟨a, v, rest, -, -, rfl⟩ | ⟨rest, hp, -⟩ | ⟨v, rest, -, rfl⟩
  · rfl
  · exact storeReg_caps (s := { s with pending := rest }) hstore
  · rfl
  · rfl
  · exact absurd hp (hreset rest)
  · rfl

end

/-- Settles O17: every step but block reset keeps CAPS, block reset samples the input, and a change of the input
is the platform's action alone. -/
theorem capabilityInputIsSampledAtReset : Obligations.CapabilityInputIsSampledAtReset :=
  ⟨fun _ _ => step_caps,
    fun s rest hp => ⟨blockReset { s with pending := rest }, step_pending hp, blockReset_caps _⟩,
    fun _ _ _ hp => step_pending hp⟩

/-! ## The registers after block reset (R220) -/

/-- Every context after block reset is the reset context. -/
theorem eq_reset_of_getElem?_blockReset {s : State} {c : Nat} {x : Context} (h : (blockReset s).ctxs[c]? = some x) :
    x = Context.reset := by
  obtain ⟨-, -, hx⟩ := List.mem_map.mp (List.mem_of_getElem? h)
  exact hx.symm

/-- STATUS of the reset context reads 0. -/
theorem Context.statusWord_reset : Context.reset.statusWord = 0 := by decide

/-- Block reset keeps the number of contexts. -/
theorem length_ctxs_blockReset (s : State) : (blockReset s).ctxs.length = s.ctxs.length := by
  rw [blockReset_ctxs, List.length_map]

/-- NCTX reads the same after block reset. -/
theorem nctxWord_blockReset (s : State) : (blockReset s).nctxWord = s.nctxWord := by
  rw [State.nctxWord, length_ctxs_blockReset, State.nctxWord]

/-- Settles O15: the state is the block reset of the state behind the action, whose contexts are all
`Context.reset`. -/
theorem blockResetSetsEveryRegister : Obligations.BlockResetSetsEveryRegister := by
  intro s rest hp
  refine ⟨blockReset { s with pending := rest }, step_pending hp, rfl, rfl, rfl, nctxWord_blockReset _,
    length_ctxs_blockReset _, fun c x hx => ?_, fun _ => rfl⟩
  obtain rfl := eq_reset_of_getElem?_blockReset hx
  exact ⟨rfl, rfl, rfl, rfl, rfl, rfl, rfl, rfl, Context.statusWord_reset⟩

end Sys2Proof.Machine
end

/-! PROOFS. The machine as a whole: the decoder and the encoder as inverses (30_encoding.md), the invariant that every
step keeps, what steps, loads and commands do and leave alone, the fold arithmetic as polynomials modulo `P(x)`
(41_fold_engine.md section 1), and the properties of digests (43_digest_commands.md). -/

namespace Sys2Proof.Machine

/-! ## Command stores (30_encoding.md) -/

/-- The CMD registers stand at their contexts' offsets and nowhere else (R57). -/
theorem windowReg_eq_cmd_iff {n off c : Nat} : windowReg n off = .cmd c ↔ off = ctxOffset c ∧ c < n := by
  constructor
  · exact windowReg_eq_cmd
  · rintro ⟨rfl, hc⟩
    exact windowReg_cmd hc

/-- A store asks for what its word decodes to on the context whose CMD it reaches (R70). -/
theorem decodeStore_eq_some_iff {off : Nat} {w : Word} {r : Except DecodeError Instr} :
    decodeStore off w = some r ↔ ∃ c, windowReg Config.maxContexts off = .cmd c ∧ decode c w = r := by
  unfold decodeStore
  cases windowReg Config.maxContexts off <;> simp

/-- Settles O1: the window map inverts `ctxOffset`, and `decode` inverts `encodeWord`. -/
theorem decodeIsTheInverseOfEncode : Obligations.DecodeIsTheInverseOfEncode := by
  intro off w i
  rw [decodeStore_eq_some_iff]
  simp only [windowReg_eq_cmd_iff, decode_eq_ok_iff, Instr.wellFormed, decide_eq_true_eq, encode, Prod.mk.injEq]
  constructor
  · rintro ⟨c, ⟨rfl, hc⟩, rfl, rfl⟩
    exact ⟨hc, rfl, rfl⟩
  · rintro ⟨hc, rfl, rfl⟩
    exact ⟨i.ctx, ⟨rfl, hc⟩, rfl, rfl⟩

/-! ## The invariant -/

/-- The part of the invariant that speaks of one context, under the capabilities `caps` and the latch `latch`. -/
structure ContextInv (caps : BitVec 3) (latch : Option Engine) (x : Context) : Prop where
  binding : x.bound = false ↔ x.eng = none
  fold_binding : x.eng = some .fold → foldOk caps = true ∧ latch = some .fold
  unbound_crc : x.bound = false → x.crc = crcInit
  sticky_set : x.code ≠ .ok → x.sticky = true

/-- The reset context meets the invariant under any capabilities and any latch. -/
theorem contextInv_reset (caps : BitVec 3) (latch : Option Engine) : ContextInv caps latch Context.reset where
  binding := by decide
  fold_binding := nofun
  unbound_crc _ := rfl
  sticky_set h := absurd rfl h

/-- Reporting a code keeps a context's invariant, as it sets STICKY with every error (R204). -/
theorem ContextInv.setCode {caps : BitVec 3} {latch : Option Engine} {x : Context} (h : ContextInv caps latch x)
    (code : ErrorCode) : ContextInv caps latch (x.setCode code) where
  binding := h.binding
  fold_binding := h.fold_binding
  unbound_crc := h.unbound_crc
  sticky_set hcode := by simp [show code ≠ .ok from hcode]

section

variable {s t : State}

/-- The invariant of each context of a state. -/
theorem State.Inv.context (h : s.Inv) {x : Context} (hx : x ∈ s.ctxs) : ContextInv s.caps s.dispatch x :=
  ⟨h.binding x hx, h.fold_binding x hx, h.unbound_crc x hx, h.sticky_set x hx⟩

/-- Other contexts and another latch keep the invariant, where both meet their parts of it. -/
theorem State.Inv.of_contexts (h : s.Inv) {latch : Option Engine} {xs : List Context}
    (hlen : xs.length = s.ctxs.length) (hlatch : ∀ e, latch = some e → (e = .fold ↔ foldOk s.caps = true))
    (hxs : ∀ x ∈ xs, ContextInv s.caps latch x) : State.Inv { s with dispatch := latch, ctxs := xs } where
  platform_wf := h.platform_wf
  contexts := hlen ▸ h.contexts
  memory := h.memory
  memory_space := h.memory_space
  binding x hx := (hxs x hx).binding
  fold_binding x hx := (hxs x hx).fold_binding
  latch := hlatch
  unbound_crc x hx := (hxs x hx).unbound_crc
  sticky_set x hx := (hxs x hx).sticky_set

/-- The invariant does not speak of CONFIG, the capability input, the queue and the record of loads. -/
theorem State.Inv.congr (h : s.Inv) (hplatform : t.platform = s.platform) (hcaps : t.caps = s.caps)
    (hlatch : t.dispatch = s.dispatch) (hctxs : t.ctxs = s.ctxs) (hmem : t.dmem = s.dmem) : t.Inv := by
  cases s; cases t
  cases hplatform; cases hcaps; cases hlatch; cases hctxs; cases hmem
  exact ⟨h.platform_wf, h.contexts, h.memory, h.memory_space, h.binding, h.fold_binding, h.latch, h.unbound_crc,
    h.sticky_set⟩

/-- A state whose contexts are reset and whose latch is untested meets the invariant, within the bounds of R5 and
over a canonical memory. -/
theorem inv_of_reset (hplatform : s.platform.wf = true) (hlen : 1 ≤ s.ctxs.length ∧ s.ctxs.length ≤ 64)
    (hmem : MemoryWf s.dmem) (hspace : ∀ cell ∈ s.dmem, cell.1 < 2 ^ s.platform.aw) (hlatch : s.dispatch = none)
    (hctxs : ∀ x ∈ s.ctxs, x = Context.reset) : s.Inv := by
  have hreset (x : Context) (hx : x ∈ s.ctxs) : ContextInv s.caps s.dispatch x := hctxs x hx ▸ contextInv_reset ..
  exact ⟨hplatform, hlen, hmem, hspace, fun x hx => (hreset x hx).binding, fun x hx => (hreset x hx).fold_binding,
    fun e he => (nomatch hlatch.symm.trans he), fun x hx => (hreset x hx).unbound_crc,
    fun x hx => (hreset x hx).sticky_set⟩

/-- Writing one context keeps the invariant, where its new contents meet theirs. -/
theorem State.Inv.setCtx (h : s.Inv) (c : Nat) {y : Context} (hy : ContextInv s.caps s.dispatch y) :
    (s.setCtx c y).Inv := by
  refine h.of_contexts List.length_set h.latch fun x hx => ?_
  rcases List.mem_or_eq_of_mem_set hx with hx | rfl
  · exact h.context hx
  · exact hy

/-- `Resolve` keeps the invariant: it latches the capability decision or keeps the latch (R151, R152). -/
theorem State.Inv.resolveLatch (h : s.Inv) : State.Inv { s with dispatch := (resolve s).2 } := by
  cases hd : s.dispatch with
  | some e =>
    rw [resolve_resolved hd, ← hd]
    exact h
  | none =>
    refine h.of_contexts rfl (fun e he => ?_) fun x hx => ?_
    · obtain rfl : (resolve s).1 = e := Option.some.inj ((resolve_snd s).symm.trans he)
      rw [resolve_untested hd, foldOk_iff]
    · have hx := h.context hx
      exact ⟨hx.binding, fun hfold => (nomatch hd.symm.trans (hx.fold_binding hfold).2), hx.unbound_crc,
        hx.sticky_set⟩

/-- A command commits the latch as it was or as `Resolve` leaves it (R152). -/
theorem commandBody_latch {i : Instr} {x : Context} {e : Commit} (he : commandBody i s x = .ok e) :
    e.dispatch = s.dispatch ∨ e.dispatch = (resolve s).2 := by
  rcases commandBody_ok he with ⟨-, rfl⟩ | ⟨-, -, rfl⟩ | ⟨-, -, v, rfl⟩ | ⟨-, -, rfl⟩ | ⟨-, rfl⟩ | ⟨-, -, rfl⟩
  · cases hforce : s.forceTable with
    | true => exact .inl (by rw [bindNew_forced hforce])
    | false => exact .inr (by rw [bindNew_unforced hforce])
  · exact .inl rfl
  · exact .inl rfl
  · exact .inl rfl
  · exact .inr rfl
  · exact .inl rfl

/-- The latch that a command commits keeps the invariant. -/
theorem State.Inv.commitLatch (h : s.Inv) {i : Instr} {x : Context} {e : Commit}
    (he : commandBody i s x = .ok e) : State.Inv { s with dispatch := e.dispatch } := by
  rcases commandBody_latch he with hlatch | hlatch <;> rw [hlatch]
  · exact h
  · exact h.resolveLatch

/-- NEW binds FOLD only together with a latch that says FOLD (R154). -/
theorem bindNew_snd_of_fold (h : (bindNew s).1 = .fold) : (bindNew s).2 = some .fold := by
  cases hforce : s.forceTable with
  | true => rw [bindNew_forced hforce] at h; cases h
  | false => rw [bindNew_unforced hforce] at h ⊢; rw [resolve_snd, h]

/-- The contents that a command commits meet the invariant under the latch that it commits. -/
theorem State.Inv.commitContext (h : s.Inv) {i : Instr} {x : Context} {e : Commit} (hx : x ∈ s.ctxs)
    (he : commandBody i s x = .ok e) : ContextInv s.caps e.dispatch e.ctx := by
  have hold : ContextInv s.caps e.dispatch x := (h.commitLatch he).context hx
  rcases commandBody_ok he with ⟨-, rfl⟩ | ⟨-, hbound, rfl⟩ | ⟨-, hbound, v, rfl⟩ | ⟨-, -, rfl⟩ | ⟨-, rfl⟩ |
    ⟨-, -, rfl⟩
  · refine ⟨by simp, fun hfold => ?_, nofun, hold.sticky_set⟩
    have hfold : (bindNew s).1 = .fold := Option.some.inj hfold
    exact ⟨(foldOk_iff _).mpr (capable_of_bindNew_fold h hfold), bindNew_snd_of_fold hfold⟩
  · exact ⟨hold.binding, hold.fold_binding, fun _ => rfl, hold.sticky_set⟩
  · exact ⟨hold.binding, hold.fold_binding, fun hunbound => (nomatch hbound.symm.trans hunbound),
      hold.sticky_set⟩
  · exact ⟨hold.binding, hold.fold_binding, hold.unbound_crc, hold.sticky_set⟩
  · exact ⟨hold.binding, hold.fold_binding, hold.unbound_crc, hold.sticky_set⟩
  · exact ⟨by simp, nofun, fun _ => rfl, hold.sticky_set⟩

/-- Reporting an error keeps the invariant. -/
theorem failCommand_keeps_inv (h : s.Inv) {c : Nat} {x : Context} (hx : s.ctxs[c]? = some x) (code : ErrorCode) :
    (failCommand s c x code).Inv :=
  h.setCtx c ((h.context (List.mem_of_getElem? hx)).setCode code)

/-- Every command keeps the invariant. -/
theorem exec_keeps_inv (h : s.Inv) {i : Instr} (hexec : exec i s = .next t) : t.Inv := by
  rcases exec_cases hexec with ⟨-, rfl⟩ | ⟨x, hx, ⟨e, he, rfl⟩ | ⟨code, -, rfl⟩⟩
  · exact h
  · exact (h.commitLatch he).setCtx i.ctx ((h.commitContext (List.mem_of_getElem? hx) he).setCode .ok)
  · exact failCommand_keeps_inv h hx code

/-- A store to an operand register keeps the invariant, which does not speak of the operands. -/
theorem storeField_keeps_inv (h : s.Inv) (c : Nat) {f : Context → Context}
    (hf : ∀ x, ContextInv s.caps s.dispatch x → ContextInv s.caps s.dispatch (f x)) : (storeField s c f).Inv := by
  unfold storeField
  split
  next x hx => exact h.setCtx c (hf x (h.context (List.mem_of_getElem? hx)))
  · exact h

/-- A store to any window register keeps the invariant. -/
theorem storeReg_keeps_inv (h : s.Inv) {r : WindowReg} {w : Word} (hstore : storeReg s r w = .next t) : t.Inv := by
  rcases storeReg_cases hstore with ⟨c, -, hcmd⟩ | ⟨-, rfl⟩ | ⟨c, -, rfl⟩ | ⟨c, -, rfl⟩ | rfl
  · rcases storeCmd_cases hcmd with ⟨i, -, hexec⟩ | ⟨-, rfl⟩ | ⟨x, hx, rfl⟩
    · exact exec_keeps_inv h hexec
    · exact h
    · exact failCommand_keeps_inv h hx _
  · exact h.congr rfl rfl rfl rfl rfl
  · exact storeField_keeps_inv h c fun _ hx => ⟨hx.binding, hx.fold_binding, hx.unbound_crc, hx.sticky_set⟩
  · exact storeField_keeps_inv h c fun _ hx => ⟨hx.binding, hx.fold_binding, hx.unbound_crc, hx.sticky_set⟩
  · exact h

/-- A host's data store below `2^AW` keeps the invariant (R34). -/
theorem writeByte_keeps_inv (h : s.Inv) {a : Nat} (v : Byte) (ha : a < 2 ^ s.platform.aw) :
    State.Inv { s with dmem := writeByte s.dmem a v } where
  platform_wf := h.platform_wf
  contexts := h.contexts
  memory := writeByte_wf h.memory a v
  memory_space cell hcell := by
    rcases mem_writeByte hcell with ⟨rfl, -⟩ | hcell
    · exact ha
    · exact h.memory_space cell hcell
  binding := h.binding
  fold_binding := h.fold_binding
  latch := h.latch
  unbound_crc := h.unbound_crc
  sticky_set := h.sticky_set

/-- Block reset keeps the invariant. -/
theorem blockReset_keeps_inv (h : s.Inv) : (blockReset s).Inv := by
  refine inv_of_reset h.platform_wf (length_ctxs_blockReset s ▸ h.contexts) h.memory h.memory_space rfl fun x hx => ?_
  obtain ⟨c, hc⟩ := List.getElem?_of_mem hx
  exact eq_reset_of_getElem?_blockReset hc

/-- The queue and the record of loads are outside the invariant. -/
theorem State.Inv.with_queue (h : s.Inv) (rest : List HostAction) (reads : List (List Byte)) :
    State.Inv { s with pending := rest, reads := reads } :=
  h.congr rfl rfl rfl rfl rfl

end

/-- The state after reset meets the invariant, within the bounds of R5. -/
theorem powerOn_inv {p : Platform} {n : Nat} (v : BitVec 3) (hp : p.wf = true) (hlo : 1 ≤ n) (hhi : n ≤ 64) :
    (State.powerOn p n v).Inv := by
  refine inv_of_reset hp ?_ ⟨List.Pairwise.nil, nofun⟩ nofun rfl fun x hx => List.eq_of_mem_replicate hx
  rw [State.powerOn, List.length_replicate]
  exact ⟨hlo, hhi⟩

/-- Settles O18: all contexts are `Context.reset` and the latch is untested. -/
theorem invariantHoldsAfterReset : Obligations.InvariantHoldsAfterReset :=
  ⟨powerOn_inv _ (by decide) (by decide) (by decide), fun _ _ v => powerOn_inv v⟩

/-- Settles O19, by the cases of a step: each action keeps the invariant, whatever stands behind it in the queue. -/
theorem everyStepKeepsTheInvariant : Obligations.EveryStepKeepsTheInvariant := by
  intro s t h hstep
  rcases step_cases hstep with ⟨-, rfl⟩ | ⟨addr, data, rest, -, -, hstore⟩ | ⟨addr, width, rest, v, -, -, rfl⟩ |
    ⟨a, v, rest, -, ha, rfl⟩ | ⟨rest, -, rfl⟩ | ⟨v, rest, -, rfl⟩
  · exact h
  · exact storeReg_keeps_inv (h.with_queue rest s.reads) hstore
  · exact h.with_queue rest _
  · exact writeByte_keeps_inv (h.with_queue rest s.reads) v ha
  · exact blockReset_keeps_inv (h.with_queue rest s.reads)
  · exact h.congr rfl rfl rfl rfl rfl

/-! ## Steps of the block (20_memory.md, 60_exceptions.md section 6) -/

/-- Eight bytes decode as the word they read as, little-endian (R59, R76). -/
theorem decodeBytes_eq_ok {c : Nat} {data : List Byte} {i : Instr} (h : decodeBytes c data = .ok i) :
    data.length = 8 ∧ decode c (le64 data 0) = .ok i := by
  unfold decodeBytes at h
  split at h
  next hlen => exact ⟨hlen, h⟩
  · cases h

/-- A store to CMD of a present context is performed on the word that its eight bytes read as (R59, R160). -/
theorem step_cmdBytes {s : State} {c : Nat} {data : List Byte} {rest : List HostAction}
    (hp : s.pending = .store (s.platform.mmioBase + ctxOffset c) data :: rest) (hc : c < 64)
    (hpresent : c < s.ctxs.length) (hlen : data.length = 8) :
    step s = storeCmd { s with pending := rest } c (le64 data 0) := by
  have ho : ctxOffset c < 0x2000 ∧ ctxOffset c % 8 = 0 := by simp only [ctxOffset]; omega
  rw [step_windowStore hp hlen ho.1 ho.2, windowReg_cmd hpresent]
  rfl

/-- A store of a command word to CMD runs the command (R160). -/
theorem storeCmd_of_decode (s : State) {c : Nat} {w : Word} {i : Instr} (h : decode c w = .ok i) :
    storeCmd s c w = exec i s := by
  simp only [storeCmd, h]

/-- Settles O5: the store reaches CMD, whose word decodes. -/
theorem stepRunsTheDecodedCommand : Obligations.StepRunsTheDecodedCommand := by
  intro s c data rest i hp hc hpresent hdecode
  obtain ⟨hlen, hword⟩ := decodeBytes_eq_ok hdecode
  rw [step_cmdBytes hp hc hpresent hlen, storeCmd_of_decode _ hword]

/-- Settles O6: an empty queue is the first case of `takeAction`. -/
theorem idleBlockHoldsItsState : Obligations.IdleBlockHoldsItsState := by
  intro s hp
  simp only [step, takeAction, hp]

/-- Settles O14: a data store is `writeByte` below `2^AW`, and a read after it sees the one byte written. -/
theorem hostDataStoreWritesOneByte : Obligations.HostDataStoreWritesOneByte := by
  intro s a v rest hp hmem
  rw [step_pending hp]
  exact ⟨fun ha => ⟨writeByte s.dmem a v, if_pos ha, fun b => readByte_writeByte hmem a b v⟩,
    fun ha => if_neg (Nat.not_lt.mpr ha)⟩

/-! ## Loads (10_state.md sections 2 and 3) -/

/-- A step whose next action is the load of a window register returns that register's value and changes nothing
else (R61). -/
theorem step_loadReg {s : State} {off : Nat} {rest : List HostAction} {v : Word} (hl : LoadsNext s off rest)
    (ho : off < 0x2000) (h8 : off % 8 = 0) (hv : loadReg s (windowReg s.ctxs.length off) = v) :
    step s = .next { s with pending := rest, reads := wordBytes v :: s.reads } := by
  rw [step_loadsNext hl ho h8, loadReg_pending, hv]

/-- CONFIG reads as FORCE_TABLE (R22). -/
theorem configWord_eq (s : State) : s.configWord = if s.forceTable then 1 else 0 := by
  unfold State.configWord
  cases s.forceTable <;> rfl

/-- DISPATCH reads as the code of the latch (R23). -/
theorem dispatchWord_eq (s : State) :
    s.dispatchWord = if s.dispatch = none then 0 else if s.dispatch = some .fold then 1 else 2 := by
  unfold State.dispatchWord
  rcases s.dispatch with _ | _ | _ <;> rfl

/-- NCTX reads as NUM_CONTEXTS, which fits its seven bits (R5, R24). -/
theorem nctxWord_eq {s : State} (h : s.ctxs.length ≤ 64) : s.nctxWord = BitVec.ofNat 64 s.ctxs.length := by
  refine BitVec.eq_of_toNat_eq ?_
  simp only [State.nctxWord, BitVec.toNat_setWidth, BitVec.toNat_ofNat]
  omega

/-- Settles O8: each global register reads as its view of the state. -/
theorem loadsOfGlobalRegisters : Obligations.LoadsOfGlobalRegisters := by
  intro s rest hlen
  refine ⟨fun hl => ?_, fun hl => ?_, fun hl v hv => ?_, fun hl => ?_⟩
  · exact step_loadReg hl (by decide) (by decide) rfl
  · exact step_loadReg hl (by decide) (by decide) (configWord_eq s)
  · exact step_loadReg hl (by decide) (by decide) ((dispatchWord_eq s).trans hv.symm)
  · exact step_loadReg hl (by decide) (by decide) (nctxWord_eq hlen)

/-- A field of a present context as the host reads it (R60). -/
theorem ctxWord_of_present {s : State} {c : Nat} {x : Context} (h : s.ctxs[c]? = some x) (field : Context → Word) :
    ctxWord s c field = field x := by
  simp only [ctxWord, h]

/-- A step whose next action is the load of a field of a present context returns that field (R61). -/
theorem step_loadField {s : State} {c r : Nat} {x : Context} {rest : List HostAction} {field : Context → Word}
    (hl : LoadsNext s (ctxOffset c + r) rest) (hc : c < 64) (hx : s.ctxs[c]? = some x) (h8 : r % 8 = 0)
    (hr : r < 0x40) (hfield : loadReg s (windowReg s.ctxs.length (ctxOffset c + r)) = ctxWord s c field) :
    step s = .next { s with pending := rest, reads := wordBytes (field x) :: s.reads } := by
  have ho : ctxOffset c + r < 0x2000 ∧ (ctxOffset c + r) % 8 = 0 := by simp only [ctxOffset]; omega
  exact step_loadReg hl ho.1 ho.2 (hfield.trans (ctxWord_of_present hx field))

/-- Settles O9: the window map puts each offset at its field. -/
theorem loadsOfContextRegisters : Obligations.LoadsOfContextRegisters := by
  intro s c x rest hc hx
  have hreg {r : Nat} (hr : r < 0x40) := congrArg (loadReg s) (windowReg_ctx (lt_length_of_ctx hx) hr)
  refine ⟨fun hl => ?_, fun hl => ?_, fun hl => ?_, fun hl => ?_⟩
  · exact step_loadField (field := Context.arg0) hl hc hx (by decide) (by decide) (hreg (by decide))
  · exact step_loadField (field := Context.arg1) hl hc hx (by decide) (by decide) (hreg (by decide))
  · exact step_loadField (field := Context.result) hl hc hx (by decide) (by decide) (hreg (by decide))
  · exact step_loadField (field := Context.statusWord) hl hc hx (by decide) (by decide) (hreg (by decide))

section

variable {k : Nat} (i : Nat)

/-- A field shifted to bit `k` of a register stands in its own bits and no others. -/
theorem getLsbD_field {n : Nat} (v : BitVec n) (hk : n + k ≤ 64) :
    (v.setWidth 64 <<< k).getLsbD i = (decide (k ≤ i) && v.getLsbD (i - k)) := by
  rcases Nat.lt_or_ge i (n + k) with hi | hi
  · simp [show i < 64 by omega, ← decide_not]
  · simp [BitVec.getLsbD_of_ge v (i - k) (by omega)]

/-- A flag at bit `k` of a register is that bit. -/
theorem getLsbD_flag (b : Bool) (hk : k < 64) :
    ((BitVec.ofBool b).setWidth 64 <<< k).getLsbD i = (decide (i = k) && b) := by
  rw [getLsbD_field i _ (by omega), BitVec.getLsbD_ofBool, ← Bool.and_assoc, ← Bool.decide_and]
  congr 2
  exact propext (by omega)

/-- The code of an engine at bit `k` of a register says FOLD there and TABLE in the next bit (R26). -/
theorem getLsbD_engine (eng : Option Engine) (hk : k < 63) :
    ((engineBits eng).setWidth 64 <<< k).getLsbD i =
      if i = k then decide (eng = some .fold) else if i = k + 1 then decide (eng = some .table) else false := by
  rw [getLsbD_field i _ (by omega)]
  rcases (by omega : i < k ∨ i = k ∨ i = k + 1 ∨ k + 2 ≤ i) with hi | rfl | rfl | hi
  · simp [show ¬ k ≤ i by omega, show i ≠ k by omega, show i ≠ k + 1 by omega]
  · rcases eng with _ | _ | _ <;> simp [engineBits]
  · rcases eng with _ | _ | _ <;> simp [engineBits]
  · simp [BitVec.getLsbD_of_ge (engineBits eng) (i - k) (by omega), show i ≠ k by omega, show i ≠ k + 1 by omega]

/-- The code of an error in the low bits of a register. -/
theorem getLsbD_code (code : ErrorCode) :
    (code.bits.setWidth 64).getLsbD i = if i < 4 then code.bits.getLsbD i else false := by
  split
  next hi => simp [show i < 64 by omega]
  next hi => simp [BitVec.getLsbD_of_ge code.bits i (by omega)]

end

/-- Settles O10: each field of STATUS stands in its own bits, and the ranges do not overlap. -/
theorem statusWordLayout : Obligations.StatusWordLayout := by
  intro x i
  simp only [Context.statusWord, BitVec.getLsbD_or, getLsbD_code]
  rw [getLsbD_flag i x.sticky (by decide), getLsbD_flag i x.bound (by decide), getLsbD_engine i x.eng (by decide)]
  rcases (by omega : i < 4 ∨ i = 8 ∨ i = 16 ∨ i = 17 ∨ i = 18 ∨
    (¬ i < 4 ∧ i ≠ 8 ∧ i ≠ 16 ∧ i ≠ 17 ∧ i ≠ 18)) with hcode | rfl | rfl | rfl | rfl | ⟨h4, h8, h16, h17, h18⟩
  · simp [hcode, show i ≠ 8 by omega, show i ≠ 16 by omega, show i ≠ 17 by omega, show i ≠ 18 by omega]
  · simp
  · simp
  · simp
  · simp
  · simp [h4, h8, h16, h17, h18]

/-! ## Reset (70_reset_and_hazards.md section 1) -/

/-- Settles O16: every context of `State.powerOn` is `Context.reset`. -/
theorem resetStateHoldsTheResetValues : Obligations.ResetStateHoldsTheResetValues := by
  refine ⟨fun p n v => ⟨rfl, rfl, rfl, List.length_replicate, fun c hc => ?_⟩, rfl⟩
  exact ⟨Context.reset, List.getElem?_replicate_of_lt hc, rfl, rfl, rfl, rfl, rfl, Context.statusWord_reset⟩

/-- Settles O56: `blockReset` writes none of these fields, and acts on the state whose queue is `rest`. -/
theorem blockResetLeavesWhatIsOutsideTheBlock : Obligations.BlockResetLeavesWhatIsOutsideTheBlock := by
  intro s t rest hp h
  rw [step_pending hp] at h
  cases h
  exact ⟨blockReset_pending _, blockReset_reads _, blockReset_platform _, blockReset_capsIn _, blockReset_dmem _⟩

/-! ## Resolve (42_dispatch.md) -/

/-- Settles O20, by the two cases of the latch. -/
theorem resolveAnswersTheLatchOrTheCapability : Obligations.ResolveAnswersTheLatchOrTheCapability := by
  refine ⟨foldOk_iff, fun s => ⟨fun hnone hcaps => ?_, fun hnone hcaps => ?_, fun e => resolve_resolved, ?_⟩⟩
  · exact resolve_eq_of_decision (.inr ⟨hnone, by simp [hcaps]⟩)
  · exact resolve_eq_of_decision (.inr ⟨hnone, by simp [hcaps]⟩)
  · exact (resolve_resolved (resolve_snd s)).trans (Prod.ext rfl (resolve_snd s).symm)

/-! ## What every command and every step keeps -/

/-- Settles O38: a command completes, fails or is ignored, each with a next state. -/
theorem everyCommandGivesANextState : Obligations.EveryCommandGivesANextState := by
  intro i s
  rw [exec_eq_runCommand]
  exact runCommand_next ..

/-- The registers of a context with contents `x` that command `i` keeps where it leaves contents `y`. -/
structure KeepsRegisters (i : Instr) (x y : Context) : Prop where
  arg0 : y.arg0 = x.arg0
  arg1 : y.arg1 = x.arg1
  result : y.result = x.result ∨ y.code = .ok ∧ (i = .sum i.ctx ∨ i = .select i.ctx)
  crc : y.crc = x.crc ∨ i = .new i.ctx ∨ i = .reset i.ctx ∨ i = .drop i.ctx ∨
    i = .write i.ctx ∨ i = .writeT i.ctx ∨ i = .writeF i.ctx
  binding : y.bound = x.bound ∧ y.eng = x.eng ∨ i = .new i.ctx ∨ i = .drop i.ctx

/-- A command that completes keeps the registers that are not its own. -/
theorem commandBody_keepsRegisters {i : Instr} {s : State} {x : Context} {e : Commit}
    (h : commandBody i s x = .ok e) : KeepsRegisters i x (e.ctx.setCode .ok) := by
  obtain ⟨harg0, harg1⟩ := commandBody_keeps_operands h
  rcases commandBody_ok h with ⟨hi, rfl⟩ | ⟨hi, -, rfl⟩ | ⟨hi, -, v, rfl⟩ | ⟨hi, -, rfl⟩ | ⟨hi, rfl⟩ | ⟨hi, -, rfl⟩
  · exact ⟨harg0, harg1, .inl rfl, .inr (.inl hi), .inr (.inl hi)⟩
  · exact ⟨harg0, harg1, .inl rfl, .inr (.inr (.inl hi)), .inl ⟨rfl, rfl⟩⟩
  · exact ⟨harg0, harg1, .inl rfl, .inr (.inr (.inr (.inr hi))), .inl ⟨rfl, rfl⟩⟩
  · exact ⟨harg0, harg1, .inr ⟨rfl, .inl hi⟩, .inl rfl, .inl ⟨rfl, rfl⟩⟩
  · exact ⟨harg0, harg1, .inr ⟨rfl, .inr hi⟩, .inl rfl, .inl ⟨rfl, rfl⟩⟩
  · exact ⟨harg0, harg1, .inl rfl, .inr (.inr (.inr (.inl hi))), .inr (.inr hi)⟩

/-- Settles O40: a completed command by what it commits; a failed one writes STATUS alone. -/
theorem registersEachCommandKeeps : Obligations.RegistersEachCommandKeeps := by
  intro i s t x h hx
  rcases exec_cases h with ⟨habsent, -⟩ | ⟨x', hx', hend⟩
  · cases habsent.symm.trans hx
  obtain rfl : x' = x := Option.some.inj (hx'.symm.trans hx)
  rcases hend with ⟨e, he, rfl⟩ | ⟨code, -, rfl⟩
  · obtain ⟨harg0, harg1, hresult, hcrc, hbinding⟩ := commandBody_keepsRegisters he
    exact ⟨_, getElem?_set_ctx hx _, harg0, harg1, hresult, hcrc, hbinding⟩
  · exact ⟨_, getElem?_set_ctx hx _, rfl, rfl, .inl rfl, .inl rfl, .inl ⟨rfl, rfl⟩⟩

/-- A command writes no data memory (20_memory.md section 2). -/
theorem exec_dmem {i : Instr} {s t : State} (h : exec i s = .next t) : t.dmem = s.dmem := by
  obtain ⟨-, -, -, -, -, hmem, -⟩ := exec_sameOutside h
  exact hmem

/-- No step but the host's data store writes data memory. -/
theorem step_dmem {s t : State} (h : step s = .next t) (hset : ∀ a v rest, s.pending ≠ .setMem a v :: rest) :
    t.dmem = s.dmem := by
  rcases step_cases h with ⟨-, rfl⟩ | ⟨addr, data, rest, -, -, hstore⟩ | ⟨addr, width, rest, v, -, -, rfl⟩ |
    ⟨a, v, rest, hp, -⟩ | ⟨rest, -, rfl⟩ | ⟨v, rest, -, rfl⟩
  · rfl
  · exact (storeReg_frame hstore).1
  · rfl
  · exact absurd hp (hset a v rest)
  · rfl
  · rfl

/-- What a command other than the WRITEs commits or raises does not depend on data memory. -/
theorem commandBody_dmem {i : Instr} (s : State) (m : List Host.Cell) (x : Context) (hwrite : i ≠ .write i.ctx)
    (hwriteT : i ≠ .writeT i.ctx) (hwriteF : i ≠ .writeF i.ctx) :
    commandBody i { s with dmem := m } x = commandBody i s x := by
  cases i with
  | new | reset | sum | select | drop => rfl
  | write => exact absurd rfl hwrite
  | writeT => exact absurd rfl hwriteT
  | writeF => exact absurd rfl hwriteF

/-- A command whose body does not depend on data memory does the same over any other. -/
theorem exec_dmem_congr {i : Instr} {s t : State} {m : List Host.Cell}
    (hbody : ∀ x, commandBody i { s with dmem := m } x = commandBody i s x) (h : exec i s = .next t) :
    exec i { s with dmem := m } = .next { t with dmem := m } := by
  rcases exec_cases h with ⟨habsent, rfl⟩ | ⟨x, hx, ⟨e, he, rfl⟩ | ⟨code, he, rfl⟩⟩
  · rw [exec_eq_runCommand]
    exact runCommand_absent habsent
  · exact exec_ok (s := { s with dmem := m }) hx ((hbody x).trans he)
  · exact exec_error (s := { s with dmem := m }) hx ((hbody x).trans he)

/-- Settles O41: no command and no window store writes data memory, and only the WRITEs fetch a buffer. -/
theorem onlyWritesReadDataMemory : Obligations.OnlyWritesReadDataMemory :=
  ⟨fun _ _ _ h _ => by rw [exec_dmem h], fun _ _ h hset _ => by rw [step_dmem h hset],
    fun _ s _ m hwrite hwriteT hwriteF h =>
      exec_dmem_congr (fun x => commandBody_dmem s m x hwrite hwriteT hwriteF) h⟩

/-! ## The Table Engine (40_table_engine.md section 2) -/

/-- Settles O43: both are the same bit steps of the register with the sixteen bytes. -/
theorem sliceStepIsSixteenByteSteps : Obligations.SliceStepIsSixteenByteSteps :=
  fun r _ hq => slice16_eq_byteSerial r hq

/-- Settles O44: the loops of R107 consume the string from the left, by slice steps and byte steps. -/
theorem tableUpdateIsByteSerial : Obligations.TableUpdateIsByteSerial :=
  tableUpdate_eq_byteSerial

/-! ## The fold constants (41_fold_engine.md R121) -/

/-- The reflected generator is the generator reversed (00_scope.md R2). -/
theorem isReverse_polyR : IsReverse polyR polyN := by
  unfold IsReverse
  decide

/-- A bit step of a reversed remainder is the reverse of the next remainder. -/
theorem IsReverse.crcBit {u : Word} {n : Nat} (h : IsReverse u (xPowMod n)) :
    IsReverse (crcBit u) (xPowMod (n + 1)) := by
  intro i hi
  have htop : u.getLsbD 0 = (xPowMod n).getLsbD 63 := h 0 (by decide)
  have hshift : (u >>> 1).getLsbD i = (xPowMod n <<< 1).getLsbD (63 - i) := by
    rw [BitVec.getLsbD_ushiftRight, BitVec.getLsbD_shiftLeft]
    rcases Nat.lt_or_ge i 63 with hlt | hge
    · rw [h (1 + i) (by omega), show 63 - (1 + i) = 63 - i - 1 by omega]
      simp [show 63 - i < 64 by omega, show 63 - i ≠ 0 by omega]
    · simp [show i = 63 by omega]
  rw [crcBit_eq, xPowMod, BitVec.getLsbD_xor, BitVec.getLsbD_xor, hshift, htop]
  split
  · rw [isReverse_polyR i hi]
  · simp

/-- `n` bit steps of the register that reads as 1 are `x^n mod P`, reversed. -/
theorem isReverse_crcBits (n : Nat) : IsReverse (crcBits n (1#64 <<< 63)) (xPowMod n) := by
  induction n with
  | zero => unfold IsReverse; decide
  | succ n ih => rw [crcBits, crcBits_comm]; exact ih.crcBit

/-- Settles O48: `K(n)` is `n` bit steps of the register that reads as 1; the quotient of `MU` is computed. -/
theorem foldConstantsAreTheirFormulas : Obligations.FoldConstantsAreTheirFormulas := by
  refine ⟨fun n hn => ?_, ?_, isReverse_polyR⟩
  · rw [foldK_eq n hn]
    exact isReverse_crcBits n
  · have hdiv : xPowDiv 128 = 2 ^ 64 + 0x578d29d06cc4f872 := by decide +kernel
    rw [hdiv]
    unfold IsReverse
    decide

/-! ## The carry-less product (41_fold_engine.md R120) -/

section

open Polynomial

/-- `poly128` is linear (00_scope.md R9). -/
theorem readsBlock_xor {a b : Block} {pa pb pc : (ZMod 2)[X]} (ha : ReadsBlock a pa) (hb : ReadsBlock b pb)
    (hc : ReadsBlock (a ^^^ b) pc) : pc = pa + pb := by
  unfold ReadsBlock at *
  rw [ha, hb, hc, ← Finset.sum_add_distrib]
  refine Finset.sum_congr rfl fun k _ => ?_
  rw [BitVec.getLsbD_xor]
  cases a.getLsbD k <;> cases b.getLsbD k <;> simp [CharTwo.add_self_eq_zero]

/-- The zero block reads as 0. -/
theorem readsBlock_zero {p : (ZMod 2)[X]} (h : ReadsBlock 0 p) : p = 0 := by
  simpa [ReadsBlock] using h

/-- A word shifted up by `n` in a block reads as its polynomial times `x^(64 - n)`: bit `i` of the word stands at
`x^(127 - n - i)`. -/
theorem readsBlock_shift {a : Word} {n : Nat} {p q : (ZMod 2)[X]} (hn : n < 64) (hp : ReadsWord a p)
    (hq : ReadsBlock (a.setWidth 128 <<< n) q) : q = X * p * X ^ (63 - n) := by
  have hsplit : q = ∑ k ∈ Finset.range (n + 64 + (64 - n)),
      if (a.setWidth 128 <<< n).getLsbD k then X ^ (127 - k) else 0 :=
    hq.trans (Finset.sum_congr (congrArg _ (by omega)) fun _ _ => rfl)
  rw [hsplit, Finset.sum_range_add, Finset.sum_range_add, Finset.sum_eq_zero (s := Finset.range n),
    Finset.sum_eq_zero (s := Finset.range (64 - n)), zero_add, add_zero, show p = _ from hp, Finset.mul_sum,
    Finset.sum_mul]
  · refine Finset.sum_congr rfl fun i hi => ?_
    have hi := Finset.mem_range.mp hi
    rw [mul_ite, ite_mul, mul_zero, zero_mul, ← pow_succ', ← pow_add,
      show 63 - i + 1 + (63 - n) = 127 - (n + i) by omega]
    simp [show n + i < 128 by omega]
  · intro i _
    simp [BitVec.getLsbD_of_ge a (n + 64 + i - n) (by omega)]
  · intro i hi
    simp [Finset.mem_range.mp hi]

/-- The partial product over the low `n` bits of `b` reads as `x` times the polynomial of `a` times those bits. -/
theorem readsBlock_clmulBits {a b : Word} {n : Nat} {pa pc : (ZMod 2)[X]} (hn : n ≤ 64) (ha : ReadsWord a pa)
    (hc : ReadsBlock (clmulBits a b n) pc) :
    pc = X * pa * ∑ i ∈ Finset.range n, if b.getLsbD i then X ^ (63 - i) else 0 := by
  induction n generalizing pc with
  | zero => rw [Finset.sum_range_zero, mul_zero]; exact readsBlock_zero hc
  | succ n ih =>
    rw [readsBlock_xor rfl rfl hc, Finset.sum_range_succ (n := n), mul_add]
    refine congrArg₂ (· + ·) (ih (by omega) rfl) ?_
    split
    · exact readsBlock_shift (by omega) ha rfl
    · rw [mul_zero]; exact readsBlock_zero rfl

/-- The product has no bit 127 (R120). -/
theorem getLsbD_clmul_127 (a b : Word) : (clmul a b).getLsbD 127 = false := by
  have hpartial (n : Nat) (hn : n ≤ 64) : (clmulBits a b n).getLsbD 127 = false := by
    induction n with
    | zero => simp [clmulBits]
    | succ n ih =>
      rw [clmulBits, BitVec.getLsbD_xor, ih (by omega)]
      split
      · simp [BitVec.getLsbD_of_ge a (127 - n) (by omega)]
      · simp
  exact hpartial 64 (le_refl _)

/-- Settles O47: the product is read bit by bit of its second operand. -/
theorem carrylessProductIsPolynomialProduct : Obligations.CarrylessProductIsPolynomialProduct := by
  refine ⟨fun a b pa pb pc ha hb hc => ?_, fun a b => ⟨clmul_comm a b, getLsbD_clmul_127 a b⟩, clmul_xor⟩
  unfold clmul at hc
  rw [readsBlock_clmulBits (le_refl 64) ha hc, show pb = _ from hb]

/-! ## Folds and the Barrett reduction as congruences (R123, R128, R129) -/

/-- A block's polynomial is its low half's times `x^64` plus its high half's (00_scope.md R9). -/
theorem readsBlock_halves {a : Block} {p q r : (ZMod 2)[X]} (hp : ReadsBlock a p) (hq : ReadsWord (loHalf a) q)
    (hr : ReadsWord (hiHalf a) r) : p = q * X ^ 64 + r := by
  have hsplit : p = _ :=
    hp.trans (Finset.sum_range_add (fun k => if a.getLsbD k then (X : (ZMod 2)[X]) ^ (127 - k) else 0) 64 64)
  rw [hsplit, show q = _ from hq, show r = _ from hr, Finset.sum_mul]
  refine congrArg₂ (· + ·) ?_ ?_
  · refine Finset.sum_congr rfl fun i hi => ?_
    have hi := Finset.mem_range.mp hi
    rw [loHalf, BitVec.getLsbD_extractLsb', ite_mul, zero_mul, ← pow_add, show 63 - i + 64 = 127 - i by omega]
    simp [hi]
  · refine Finset.sum_congr rfl fun i hi => ?_
    have hi := Finset.mem_range.mp hi
    rw [hiHalf, BitVec.getLsbD_extractLsb', show 127 - (64 + i) = 63 - i by omega]
    simp [hi]

section

variable {a b : Block} {pa pb g : (ZMod 2)[X]} (ha : ReadsBlock a pa) (hg : ReadsGenerator g)

include ha hg

/-- A block is congruent to its residue modulo `P(x)`. -/
theorem readsBlock_red {p : (ZMod 2)[X]} (hp : ReadsWord (red a) p) : ∃ k, pa = p + g * k := by
  obtain ⟨k, hk⟩ := readsWord_crcBits 64 (r := loHalf a) rfl rfl hg
  refine ⟨k, ?_⟩
  rw [readsBlock_halves ha rfl rfl, hk, readsWord_xor rfl rfl hp]
  ring

/-- The residue of a block is its remainder modulo `P(x)`. -/
theorem readsWord_red_eq_modByMonic {p : (ZMod 2)[X]} (hp : ReadsWord (red a) p) : p = pa %ₘ g := by
  obtain ⟨k, hk⟩ := readsBlock_red ha hg hp
  exact readsWord_eq_modByMonic hp hg hk

/-- A block whose residue is `n` bit steps on is congruent to the other block times `x^n`. -/
theorem modByMonic_of_red_eq_crcBits (hb : ReadsBlock b pb) {n : Nat} (h : red b = crcBits n (red a)) :
    pb %ₘ g = (pa * X ^ n) %ₘ g := by
  have hrem := readsWord_red_eq_modByMonic hb hg rfl
  rw [h] at hrem
  obtain ⟨k, hk⟩ := readsBlock_red ha hg rfl
  obtain ⟨l, hl⟩ := readsWord_crcBits n (r := red a) rfl rfl hg
  rw [← hrem]
  refine readsWord_eq_modByMonic rfl hg (k := k * X ^ n + l) ?_
  linear_combination X ^ n * hk + hl

end

/-- Settles O49: a fold by `D` bytes is `8 D` bit steps of the residue, and a sum of two products. -/
theorem foldAdvancesByItsDistance : Obligations.FoldAdvancesByItsDistance := by
  intro D hD x px pf pg hx hf hg
  refine ⟨modByMonic_of_red_eq_crcBits hx hg hf (red_foldBy D hD x), ?_⟩
  rw [foldBy, BitVec.getLsbD_xor, getLsbD_clmul_127, getLsbD_clmul_127]
  rfl

/-- Settles O50: the fold-down is 64 bit steps of the residue, and the Barrett reduction is the residue. -/
theorem barrettReducesTheFoldDown : Obligations.BarrettReducesTheFoldDown := by
  intro a pa pf pb pg ha hf hb hg
  rw [barrett_eq_red] at hb
  exact ⟨modByMonic_of_red_eq_crcBits ha hg hf (red_fold64 a), readsWord_red_eq_modByMonic ha hg hb⟩

end

/-! ## The WRITE commands as one function (42_dispatch.md, 43_digest_commands.md) -/

/-- Either engine that a binding stands for computes the byte-serial CRC (R133). -/
theorem boundUpdate_eq_byteSerial (eng : Option Engine) (r : Word) (d : List Byte) :
    boundUpdate eng r d = byteSerial r d := by
  unfold boundUpdate
  split
  · exact foldUpdate_eq_byteSerial r d
  · exact tableUpdate_eq_byteSerial r d

/-- A WRITE past its checks, through an engine that computes the byte-serial CRC. -/
theorem extendCrc_byteSerial {s : State} {x : Context} {update : Word → List Byte → Word}
    (hupdate : ∀ r d, update r d = byteSerial r d) (h : BufferReadable s x) :
    extendCrc s x update =
      .ok { dispatch := s.dispatch, ctx := { x with crc := byteSerial x.crc (bufferBytes s x) } } := by
  rw [extendCrc_readable h, hupdate]

/-- Settles O53: all three engines compute the byte-serial CRC, so the three commands commit the same. -/
theorem theThreeWritesAgree : Obligations.TheThreeWritesAgree := by
  intro s c x hx hbound hcaps hbuf
  have hwriteT := exec_commit (i := .writeT c) hx
    ((needBound_of_bound hbound _).trans (extendCrc_byteSerial tableUpdate_eq_byteSerial hbuf))
  have hwriteF := exec_commit (i := .writeF c) hx
    ((commandBody_writeF_capable c hbound hcaps).trans (extendCrc_byteSerial foldUpdate_eq_byteSerial hbuf))
  have hwrite := exec_commit (i := .write c) hx
    ((needBound_of_bound hbound _).trans (extendCrc_byteSerial (boundUpdate_eq_byteSerial x.eng) hbuf))
  exact ⟨hwriteF.trans hwriteT.symm, hwrite.trans hwriteT.symm, hwriteT⟩

/-! ## Commands on a context whose contents are known

Each rule gives the state after a command on `s.setCtx c y` in the same form, so that sequences of commands chain. -/

section

variable {s : State} {c : Nat} {x y : Context}

/-- A later write of a context overrides an earlier one. -/
@[simp] theorem State.setCtx_setCtx (s : State) (c : Nat) (y z : Context) :
    (s.setCtx c y).setCtx c z = s.setCtx c z := by
  simp only [State.setCtx, List.set_set]

/-- A context written with what it holds is unchanged. -/
theorem State.setCtx_self (hx : s.ctxs[c]? = some x) : s.setCtx c x = s := by
  obtain ⟨hc, hx⟩ := List.getElem?_eq_some_iff.mp hx
  rw [State.setCtx, ← hx, List.set_getElem_self]

/-- A context that is written holds what is written. -/
theorem State.getElem?_setCtx (hc : c < s.ctxs.length) (y : Context) : (s.setCtx c y).ctxs[c]? = some y :=
  List.getElem?_set_self hc

/-- What a command commits depends on the contents of its context and not on what they were before. -/
theorem commandBody_setCtx (i : Instr) (s : State) (c : Nat) (y : Context) :
    commandBody i (s.setCtx c y) y = commandBody i s y :=
  SameReadable.commandBody_eq ⟨rfl, rfl, rfl, rfl, fun _ => rfl⟩ i y

/-- A command that completes on contents `y` of its context. -/
theorem exec_setCtx {i : Instr} {e : Commit} (hc : i.ctx < s.ctxs.length) (h : commandBody i s y = .ok e) :
    exec i (s.setCtx i.ctx y) =
      .next (State.setCtx { s with dispatch := e.dispatch } i.ctx { e.ctx with code := .ok }) := by
  rw [exec_commit (State.getElem?_setCtx hc y) ((commandBody_setCtx i s i.ctx y).trans h)]
  simp only [State.setCtx, List.set_set]

variable (hc : c < s.ctxs.length)

include hc

/-- NEW makes a fresh Digest (R161). -/
theorem exec_new_setCtx (y : Context) :
    exec (.new c) (s.setCtx c y) = .next (State.setCtx { s with dispatch := (bindNew s).2 } c
      { y with eng := some (bindNew s).1, bound := true, crc := crcInit, code := .ok }) :=
  exec_setCtx (i := .new c) hc rfl

/-- RESET restarts a Digest (R162). -/
theorem exec_reset_setCtx (hbound : y.bound = true) :
    exec (.reset c) (s.setCtx c y) = .next (s.setCtx c { y with crc := crcInit, code := .ok }) :=
  exec_setCtx (i := .reset c) hc (needBound_of_bound hbound _)

/-- SUM puts the checksum in RESULT (R167). -/
theorem exec_sum_setCtx (hbound : y.bound = true) :
    exec (.sum c) (s.setCtx c y) = .next (s.setCtx c { y with result := y.crc ^^^ xorOut, code := .ok }) :=
  exec_setCtx (i := .sum c) hc (needBound_of_bound hbound _)

/-- WRITE extends the register by the bytes of a readable buffer, through either binding (R164, R133). -/
theorem exec_write_setCtx (hbound : y.bound = true) (hbuf : BufferReadable s y) :
    exec (.write c) (s.setCtx c y) =
      .next (s.setCtx c { y with crc := byteSerial y.crc (bufferBytes s y), code := .ok }) :=
  exec_setCtx (i := .write c) hc
    ((needBound_of_bound hbound _).trans (extendCrc_byteSerial (boundUpdate_eq_byteSerial y.eng) hbuf))

end

/-! ## Two WRITEs over the parts of a buffer (43_digest_commands.md, property 1) -/

/-- The bytes of a buffer are one read of data memory (R52). -/
theorem bufferBytes_eq_memRead (s : State) (x : Context) :
    bufferBytes s x = memRead s.dmem x.arg0.toNat x.arg1.toNat :=
  (memRead_eq_map ..).symm

/-- The operands of `y` name the `n` bytes from byte `j` on of the buffer that the operands of `x` name. -/
def BufferPart (x y : Context) (j n : Nat) : Prop :=
  y.arg1.toNat = n ∧ (n = 0 ∨ y.arg0.toNat = x.arg0.toNat + j)

section

variable {s : State} {x y : Context} {j n : Nat}

/-- The bytes of a part of a buffer. -/
theorem BufferPart.bytes (h : BufferPart x y j n) : bufferBytes s y = memRead s.dmem (x.arg0.toNat + j) n := by
  obtain ⟨rfl, hempty | haddr⟩ := h
  · rw [bufferBytes_eq_memRead, hempty, memRead, memRead]
  · rw [bufferBytes_eq_memRead, haddr]

/-- A part of a readable buffer is readable. -/
theorem BufferPart.readable (h : BufferPart x y j n) (hbuf : BufferReadable s x) (hle : j + n ≤ x.arg1.toNat) :
    BufferReadable s y := by
  obtain ⟨rfl, hempty | haddr⟩ := h
  · exact .inl hempty
  · rcases hbuf with hzero | ⟨hend, hadm⟩
    · exact .inl (by omega)
    · refine .inr ⟨by omega, fun i hi => ?_⟩
      rw [haddr, Nat.add_assoc]
      exact hadm (j + i) (by omega)

/-- A length within a buffer's fits the register. -/
theorem toNat_ofNat_length (hle : j + n ≤ x.arg1.toNat) : (BitVec.ofNat 64 n).toNat = n := by
  rw [BitVec.toNat_ofNat]
  omega

/-- Operands that name the first bytes of a buffer. -/
theorem bufferPart_first (hlen : y.arg1 = BitVec.ofNat 64 n) (haddr : y.arg0 = x.arg0) (hle : 0 + n ≤ x.arg1.toNat) :
    BufferPart x y 0 n := by
  rw [BufferPart, hlen, haddr]
  exact ⟨toNat_ofNat_length hle, .inr rfl⟩

/-- Operands that name a part of a readable buffer: the address of a byte of the buffer fits the register, as
`AW` is at most 64 (R5). -/
theorem bufferPart_rest (haw : s.platform.aw ≤ 64) (hbuf : BufferReadable s x) (hlen : y.arg1 = BitVec.ofNat 64 n)
    (haddr : y.arg0 = BitVec.ofNat 64 (x.arg0.toNat + j)) (hle : j + n ≤ x.arg1.toNat) : BufferPart x y j n := by
  have hspace : 2 ^ s.platform.aw ≤ 2 ^ 64 := Nat.pow_le_pow_right (by decide) haw
  rw [BufferPart, hlen, haddr, BitVec.toNat_ofNat (x.arg0.toNat + j)]
  refine ⟨toNat_ofNat_length hle, ?_⟩
  rcases hbuf with hzero | ⟨hend, -⟩ <;> omega

end

/-- The address width is in R5's bounds. -/
theorem Platform.aw_le_of_wf {p : Platform} (h : p.wf = true) : p.aw ≤ 64 := by
  simp only [Platform.wf, Bool.and_eq_true, decide_eq_true_eq] at h
  obtain ⟨⟨-, haw⟩, -⟩ := h
  exact haw

/-- Settles O54: the parts of the buffer are readable, their bytes are its bytes, and the byte-serial CRC composes. -/
theorem splitWritesEqualOneWrite : Obligations.SplitWritesEqualOneWrite := by
  intro s c k n x hwf hx hbound hbuf hlen
  have hc := lt_length_of_ctx hx
  have hfirst : BufferPart x { x with arg1 := BitVec.ofNat 64 k } 0 k := bufferPart_first rfl rfl (by omega)
  have hrest (crc : Word) : BufferPart x
      { x with arg0 := BitVec.ofNat 64 (x.arg0.toNat + k), arg1 := BitVec.ofNat 64 n, crc := crc, code := .ok } k n :=
    bufferPart_rest (Platform.aw_le_of_wf hwf) hbuf rfl rfl (by omega)
  have hwhole := exec_write_setCtx hc hbound hbuf
  rw [State.setCtx_self hx] at hwhole
  refine ⟨_, _, _, _, _, _, exec_write_setCtx hc hbound (hfirst.readable hbuf (by omega)), State.getElem?_setCtx hc _,
    (congrArg _ (State.setCtx_setCtx ..)).trans
      (exec_write_setCtx hc hbound ((hrest _).readable hbuf (by omega))), State.getElem?_setCtx hc _,
    hwhole, State.getElem?_setCtx hc _, rfl, rfl, rfl, ?_⟩
  have hbytes : bufferBytes s x = memRead s.dmem (x.arg0.toNat + 0) k ++ memRead s.dmem (x.arg0.toNat + k) n := by
    rw [bufferBytes_eq_memRead, hlen, memRead_add, Nat.add_zero]
  show byteSerial (byteSerial x.crc _) _ = byteSerial x.crc _
  rw [hfirst.bytes, (hrest _).bytes, ← byteSerial_append, ← hbytes]

/-! ## Sequences of commands (43_digest_commands.md, properties 2 and 3) -/

/-- A sequence of commands runs its first command and then the others on the state that the first leaves. -/
theorem execList_cons {i : Instr} {is : List Instr} {s t u : State} (h : exec i s = .next t)
    (hs : execList is t = .next u) : execList (i :: is) s = .next u := by
  simp only [execList, h, hs]

section

variable {s : State} {c : Nat} {x : Context} (hc : c < s.ctxs.length)

include hc

/-- SUM of a fresh digest is `INIT` masked, which is 0. -/
theorem execList_new_sum (x : Context) :
    ∃ t y, execList [.new c, .sum c] (s.setCtx c x) = .next t ∧ t.ctxs[c]? = some y ∧ y.code = .ok ∧
      y.result = 0 :=
  ⟨_, _, execList_cons (exec_new_setCtx hc x) (execList_cons (exec_sum_setCtx hc rfl) rfl),
    State.getElem?_setCtx hc _, rfl, (by decide : crcInit ^^^ xorOut = 0)⟩

/-- NEW, WRITE and SUM give the checksum of the buffer from `INIT`. -/
theorem execList_new_write_sum (hbuf : BufferReadable s x) :
    ∃ t y, execList [.new c, .write c, .sum c] (s.setCtx c x) = .next t ∧ t.ctxs[c]? = some y ∧ y.code = .ok ∧
      y.result = byteSerial crcInit (bufferBytes s x) ^^^ xorOut :=
  ⟨_, _, execList_cons (exec_new_setCtx hc x) (execList_cons (exec_write_setCtx hc rfl hbuf)
    (execList_cons (exec_sum_setCtx hc rfl) rfl)), State.getElem?_setCtx hc _, rfl, rfl⟩

/-- RESET between two WRITEs forgets the first: SUM gives the checksum of the buffer from `INIT`. -/
theorem execList_write_reset_write_sum (hbound : x.bound = true) (hbuf : BufferReadable s x) :
    ∃ t y, execList [.write c, .reset c, .write c, .sum c] (s.setCtx c x) = .next t ∧ t.ctxs[c]? = some y ∧
      y.code = .ok ∧ y.result = byteSerial crcInit (bufferBytes s x) ^^^ xorOut :=
  ⟨_, _, execList_cons (exec_write_setCtx hc hbound hbuf) (execList_cons (exec_reset_setCtx hc hbound)
    (execList_cons (exec_write_setCtx hc hbound hbuf) (execList_cons (exec_sum_setCtx hc hbound) rfl))),
    State.getElem?_setCtx hc _, rfl, rfl⟩

end

/-- Settles O55: NEW and RESET both leave `INIT` in the register, and a WRITE of the same bytes extends both alike. -/
theorem freshAndResetDigestsSumAlike : Obligations.FreshAndResetDigestsSumAlike := by
  refine ⟨fun s c x hx => ?_, fun s c x hx hbound hbuf => ?_⟩
  · have h := execList_new_sum (lt_length_of_ctx hx) x
    rwa [State.setCtx_self hx] at h
  · obtain ⟨t₁, y₁, h₁, hy₁, hcode₁, hresult₁⟩ :=
      execList_write_reset_write_sum (lt_length_of_ctx hx) hbound hbuf
    obtain ⟨t₂, y₂, h₂, hy₂, hcode₂, hresult₂⟩ := execList_new_write_sum (lt_length_of_ctx hx) hbuf
    rw [State.setCtx_self hx] at h₁ h₂
    exact ⟨t₁, y₁, t₂, y₂, h₁, hy₁, h₂, hy₂, hcode₁, hcode₂, hresult₁.trans hresult₂.symm⟩

end Sys2Proof.Machine
